-- ==== Sys2Proof/Word.lean ====
section
/-! DEFINITION. The two widths of the machine: the 16-bit word (registers, PC, memory words, instructions, addresses)
and the 8-bit byte of the console (00_scope.md R7, R12). Arithmetic on both is BitVec's: modulo 2^16 and 2^8 (R12). -/

namespace Sys2Proof

/-- An unsigned 16-bit number: a register, a memory word, an address, an instruction (00_scope.md R12). -/
abbrev Word := BitVec 16

/-- One byte of console input or output (00_scope.md R9). -/
abbrev Byte := BitVec 8

end Sys2Proof
end

