-- ==== Sys2Proof/Syntax.lean ====
section
/-! DEFINITION. The instructions as data: one constructor per row of spec/opcode_table.json (30_encoding.md R81, R99;
the six rows GETC to HALT of the trap table, 44_trap.md R202, have constructors of their own). Operand fields hold the
instruction's bits as they stand; Machine/Operands.lean extends them. -/

namespace Sys2Proof

/-- The eight general registers (10_state.md R20). -/
inductive Reg where
  | r0 | r1 | r2 | r3 | r4 | r5 | r6 | r7
deriving DecidableEq, Repr, Inhabited

/-- An instruction. `off`, `imm` and `vect` are the raw fields of 30_encoding.md R82. -/
inductive Instr where
  /-- BR, 42_control.md R150: the bits n, z, p and PCoffset9. -/
  | br (n z p : Bool) (off : BitVec 9)
  /-- ADD, register form, 41_alu.md R130. -/
  | addReg (dr sr1 sr2 : Reg)
  /-- ADD, immediate form, 41_alu.md R131. -/
  | addImm (dr sr1 : Reg) (imm : BitVec 5)
  /-- LD, 43_load_store.md R170. -/
  | ld (dr : Reg) (off : BitVec 9)
  /-- ST, 43_load_store.md R174. -/
  | st (sr : Reg) (off : BitVec 9)
  /-- JSR, 42_control.md R153. -/
  | jsr (off : BitVec 11)
  /-- JSRR, 42_control.md R154. -/
  | jsrr (base : Reg)
  /-- AND, register form, 41_alu.md R133. -/
  | andReg (dr sr1 sr2 : Reg)
  /-- AND, immediate form, 41_alu.md R134. -/
  | andImm (dr sr1 : Reg) (imm : BitVec 5)
  /-- LDR, 43_load_store.md R172. -/
  | ldr (dr base : Reg) (off : BitVec 6)
  /-- STR, 43_load_store.md R176. -/
  | str (sr base : Reg) (off : BitVec 6)
  /-- RTI, reserved, 45_reserved.md R240. -/
  | rti
  /-- NOT, 41_alu.md R136. -/
  | not (dr sr : Reg)
  /-- LDI, 43_load_store.md R171. -/
  | ldi (dr : Reg) (off : BitVec 9)
  /-- STI, 43_load_store.md R175. -/
  | sti (sr : Reg) (off : BitVec 9)
  /-- JMP, 42_control.md R152. -/
  | jmp (base : Reg)
  /-- RES, reserved, 45_reserved.md R241. -/
  | res
  /-- LEA, 43_load_store.md R173. -/
  | lea (dr : Reg) (off : BitVec 9)
  /-- TRAP with a vector that has no row of its own, 44_trap.md R200, R209. -/
  | trap (vect : BitVec 8)
  /-- TRAP x20, 44_trap.md R203. -/
  | getc
  /-- TRAP x21, 44_trap.md R204. -/
  | out
  /-- TRAP x22, 44_trap.md R205. -/
  | puts
  /-- TRAP x23 (IN), 44_trap.md R206. -/
  | inChar
  /-- TRAP x24, 44_trap.md R207. -/
  | putsp
  /-- TRAP x25, 44_trap.md R208. -/
  | halt
deriving DecidableEq, Repr, Inhabited

end Sys2Proof
end

