-- ==== Sys2Proof/WellFormed.lean ====
section
/-! DEFINITION. Which instruction terms stand for a word. The fields have the width of their encoding, so the one check
left is that a defined trap vector is written with its own constructor (44_trap.md R202). -/

namespace Sys2Proof

/-- The six vectors of the trap table, 0x20 to 0x25 (44_trap.md R202). -/
def isServiceVector (v : BitVec 8) : Bool := 0x20#8 ≤ v && v ≤ 0x25#8

/-- Well-formed: every register number, immediate and offset is (10_state.md R21, 30_encoding.md R93); `trap v` is when `v`
is none of the six vectors that getc to halt stand for. -/
def Instr.wf : Instr → Bool
  | .br _ _ _ _ => true
  | .addReg _ _ _ => true
  | .addImm _ _ _ => true
  | .ld _ _ => true
  | .st _ _ => true
  | .jsr _ => true
  | .jsrr _ => true
  | .andReg _ _ _ => true
  | .andImm _ _ _ => true
  | .ldr _ _ _ => true
  | .str _ _ _ => true
  | .rti => true
  | .not _ _ => true
  | .ldi _ _ => true
  | .sti _ _ => true
  | .jmp _ => true
  | .res => true
  | .lea _ _ => true
  | .trap vect => !isServiceVector vect
  | .getc => true
  | .out => true
  | .puts => true
  | .inChar => true
  | .putsp => true
  | .halt => true

end Sys2Proof
end

