-- ==== Sys2Proof/Decode.lean ====
section
/-! DEFINITION. Decoding (30_encoding.md R99) and encoding (R83 to R92), and the opcode table's mask and match of each row.
The decoder takes one word (R80) and is total: every one of the 65536 words is an instruction (R96), so it has nothing to
reject; the two reserved opcodes decode to rti and res. The opcode numbers and field positions are the spec's decisions
D1, D2 and D4 (log entry 15). -/

namespace Sys2Proof

/-- The register a 3-bit field selects; every value is valid (10_state.md R21, 30_encoding.md R94). -/
def Reg.ofBits (b : BitVec 3) : Reg :=
  match b.toNat with
  | 0 => .r0
  | 1 => .r1
  | 2 => .r2
  | 3 => .r3
  | 4 => .r4
  | 5 => .r5
  | 6 => .r6
  | _ => .r7

/-- The 3-bit number of a register. -/
def Reg.toBits : Reg → BitVec 3
  | .r0 => 0#3
  | .r1 => 1#3
  | .r2 => 2#3
  | .r3 => 3#3
  | .r4 => 4#3
  | .r5 => 5#3
  | .r6 => 6#3
  | .r7 => 7#3

/-- The field of `n` bits of `w` whose lowest bit is bit `lo`: `w[lo+n-1:lo]` (00_scope.md R11). -/
def field (w : Word) (lo n : Nat) : BitVec n := w.extractLsb' lo n

/-- The register named by the 3-bit field whose lowest bit is bit `lo`. -/
def regField (w : Word) (lo : Nat) : Reg := Reg.ofBits (field w lo 3)

/-- The instruction of a trap vector: the six rows of the trap table by name (44_trap.md R202), the rest as TRAP (R97). -/
def decodeTrap (v : BitVec 8) : Instr :=
  match v.toNat with
  | 0x20 => .getc
  | 0x21 => .out
  | 0x22 => .puts
  | 0x23 => .inChar
  | 0x24 => .putsp
  | 0x25 => .halt
  | _ => .trap v

/-- The total decoder of 30_encoding.md R99; the opcode is bits [15:12] (R81), ignored bits are not read (R95). -/
def decode (w : Word) : Instr :=
  match (field w 12 4).toNat with
  | 0x0 => .br (w.getLsbD 11) (w.getLsbD 10) (w.getLsbD 9) (field w 0 9)
  | 0x1 => if w.getLsbD 5 then .addImm (regField w 9) (regField w 6) (field w 0 5)
           else .addReg (regField w 9) (regField w 6) (regField w 0)
  | 0x2 => .ld (regField w 9) (field w 0 9)
  | 0x3 => .st (regField w 9) (field w 0 9)
  | 0x4 => if w.getLsbD 11 then .jsr (field w 0 11) else .jsrr (regField w 6)
  | 0x5 => if w.getLsbD 5 then .andImm (regField w 9) (regField w 6) (field w 0 5)
           else .andReg (regField w 9) (regField w 6) (regField w 0)
  | 0x6 => .ldr (regField w 9) (regField w 6) (field w 0 6)
  | 0x7 => .str (regField w 9) (regField w 6) (field w 0 6)
  | 0x8 => .rti
  | 0x9 => .not (regField w 9) (regField w 6)
  | 0xA => .ldi (regField w 9) (field w 0 9)
  | 0xB => .sti (regField w 9) (field w 0 9)
  | 0xC => .jmp (regField w 6)
  | 0xD => .res
  | 0xE => .lea (regField w 9) (field w 0 9)
  | _ => decodeTrap (field w 0 8)

/-- The word of an instruction, by the formats R83 to R92. DESIGN CHOICE: ignored bits are written 0, safe; log entry 13. -/
def encode : Instr → Word
  | .br n z p off => 0x0#4 ++ BitVec.ofBool n ++ BitVec.ofBool z ++ BitVec.ofBool p ++ off
  | .addReg dr sr1 sr2 => 0x1#4 ++ dr.toBits ++ sr1.toBits ++ 0#1 ++ 0#2 ++ sr2.toBits
  | .addImm dr sr1 imm => 0x1#4 ++ dr.toBits ++ sr1.toBits ++ 1#1 ++ imm
  | .ld dr off => 0x2#4 ++ dr.toBits ++ off
  | .st sr off => 0x3#4 ++ sr.toBits ++ off
  | .jsr off => 0x4#4 ++ 1#1 ++ off
  | .jsrr base => 0x4#4 ++ 0#1 ++ 0#2 ++ base.toBits ++ 0#6
  | .andReg dr sr1 sr2 => 0x5#4 ++ dr.toBits ++ sr1.toBits ++ 0#1 ++ 0#2 ++ sr2.toBits
  | .andImm dr sr1 imm => 0x5#4 ++ dr.toBits ++ sr1.toBits ++ 1#1 ++ imm
  | .ldr dr base off => 0x6#4 ++ dr.toBits ++ base.toBits ++ off
  | .str sr base off => 0x7#4 ++ sr.toBits ++ base.toBits ++ off
  | .rti => 0x8#4 ++ 0#12
  | .not dr sr => 0x9#4 ++ dr.toBits ++ sr.toBits ++ 0#6
  | .ldi dr off => 0xA#4 ++ dr.toBits ++ off
  | .sti sr off => 0xB#4 ++ sr.toBits ++ off
  | .jmp base => 0xC#4 ++ 0#3 ++ base.toBits ++ 0#6
  | .res => 0xD#4 ++ 0#12
  | .lea dr off => 0xE#4 ++ dr.toBits ++ off
  | .trap vect => 0xF#4 ++ 0#4 ++ vect
  | .getc => 0xF#4 ++ 0#4 ++ 0x20#8
  | .out => 0xF#4 ++ 0#4 ++ 0x21#8
  | .puts => 0xF#4 ++ 0#4 ++ 0x22#8
  | .inChar => 0xF#4 ++ 0#4 ++ 0x23#8
  | .putsp => 0xF#4 ++ 0#4 ++ 0x24#8
  | .halt => 0xF#4 ++ 0#4 ++ 0x25#8

/-- The bits some field or opcode bit of the instruction reads: all but the ignored bits listed in 30_encoding.md R95. -/
def usedBits : Instr → Word
  | .br _ _ _ _ => 0xFFFF
  | .addReg _ _ _ => 0xFFE7
  | .addImm _ _ _ => 0xFFFF
  | .ld _ _ => 0xFFFF
  | .st _ _ => 0xFFFF
  | .jsr _ => 0xFFFF
  | .jsrr _ => 0xF9C0
  | .andReg _ _ _ => 0xFFE7
  | .andImm _ _ _ => 0xFFFF
  | .ldr _ _ _ => 0xFFFF
  | .str _ _ _ => 0xFFFF
  | .rti => 0xF000
  | .not _ _ => 0xFFC0
  | .ldi _ _ => 0xFFFF
  | .sti _ _ => 0xFFFF
  | .jmp _ => 0xF1C0
  | .res => 0xF000
  | .lea _ _ => 0xFFFF
  | .trap _ => 0xF0FF
  | .getc => 0xF0FF
  | .out => 0xF0FF
  | .puts => 0xF0FF
  | .inChar => 0xF0FF
  | .putsp => 0xF0FF
  | .halt => 0xF0FF

/-- The fixed bits of an instruction's row in spec/opcode_table.json ("mask"). -/
def tableMask : Instr → Word
  | .br _ _ _ _ => 0xF000
  | .addReg _ _ _ => 0xF020
  | .addImm _ _ _ => 0xF020
  | .ld _ _ => 0xF000
  | .st _ _ => 0xF000
  | .jsr _ => 0xF800
  | .jsrr _ => 0xF800
  | .andReg _ _ _ => 0xF020
  | .andImm _ _ _ => 0xF020
  | .ldr _ _ _ => 0xF000
  | .str _ _ _ => 0xF000
  | .rti => 0xF000
  | .not _ _ => 0xF000
  | .ldi _ _ => 0xF000
  | .sti _ _ => 0xF000
  | .jmp _ => 0xF000
  | .res => 0xF000
  | .lea _ _ => 0xF000
  | .trap _ => 0xF000
  | .getc => 0xF0FF
  | .out => 0xF0FF
  | .puts => 0xF0FF
  | .inChar => 0xF0FF
  | .putsp => 0xF0FF
  | .halt => 0xF0FF

/-- The values of those fixed bits in spec/opcode_table.json ("match"). -/
def tableMatch : Instr → Word
  | .br _ _ _ _ => 0x0000
  | .addReg _ _ _ => 0x1000
  | .addImm _ _ _ => 0x1020
  | .ld _ _ => 0x2000
  | .st _ _ => 0x3000
  | .jsr _ => 0x4800
  | .jsrr _ => 0x4000
  | .andReg _ _ _ => 0x5000
  | .andImm _ _ _ => 0x5020
  | .ldr _ _ _ => 0x6000
  | .str _ _ _ => 0x7000
  | .rti => 0x8000
  | .not _ _ => 0x9000
  | .ldi _ _ => 0xA000
  | .sti _ _ => 0xB000
  | .jmp _ => 0xC000
  | .res => 0xD000
  | .lea _ _ => 0xE000
  | .trap _ => 0xF000
  | .getc => 0xF020
  | .out => 0xF021
  | .puts => 0xF022
  | .inChar => 0xF023
  | .putsp => 0xF024
  | .halt => 0xF025

/-- The word of an instruction of `nbits` bits whose bits are `w`, the bits above `nbits` zero (30_encoding.md R80: one word). -/
def tableWord (nbits w : Nat) : Word := BitVec.ofNat 16 (w % 2 ^ nbits)

/-- What the decoder reads from an instruction of the opcode table whose bits are `w`. It refuses nothing (R96). -/
def decodeTableWord (nbits w : Nat) : Option Instr := some (decode (tableWord nbits w))

end Sys2Proof
end

