-- ==== Sys2Proof/Machine/State.lean ====
section
/-! DEFINITION. Everything the spec gives the machine (10_state.md R34) as plain data, why a step may stop, and the machine
right after reset (R35). -/

namespace Sys2Proof.Machine

/-- The general registers R0 to R7 (10_state.md R20). -/
structure RegFile where
  r0 : Word
  r1 : Word
  r2 : Word
  r3 : Word
  r4 : Word
  r5 : Word
  r6 : Word
  r7 : Word
deriving DecidableEq, Repr, Inhabited

/-- COND: exactly one of three flags (10_state.md R25, held as R28 allows). -/
inductive Cond where
  | negative
  | zero
  | positive
deriving DecidableEq, Repr, Inhabited

/-- Why a run was aborted (60_exceptions.md R250). -/
inductive AbortReason where
  /-- RTI (op 0x8) or RES (op 0xD), always (45_reserved.md R242). -/
  | reservedOpcode (op : BitVec 4)
  /-- TRAP with a vector outside 0x20 to 0x25, when UNKNOWN_TRAP is FAULT (44_trap.md R212). -/
  | unknownTrap (vect : BitVec 8)
  /-- PUTS or PUTSP reached 0xFE00 (44_trap.md R213). -/
  | trapStringAtKBSR (a : Word)
  /-- PUTS or PUTSP would go on past 0xFFFF (44_trap.md R214). -/
  | trapStringWrap (a : Word)
deriving DecidableEq, Repr, Inhabited

/-- The run status (10_state.md R32). -/
inductive Status where
  | running
  | halted
  /-- With the reason and the address of the instruction that faulted. -/
  | aborted (reason : AbortReason) (ia : Word)
deriving DecidableEq, Repr, Inhabited

/-- Memory: its byte cells, addresses rising, none holding what an unlisted cell reads as (`Memory.wf` in Machine/Ops.lean).
The 16-bit word at word address `a` is the cells `2a` (bits [15:8]) and `2a+1` (bits [7:0]). DESIGN CHOICE, safe: no
instruction addresses a byte, so the order cannot be seen (20_memory.md R51); log entry 1. -/
abbrev Memory := List Host.Cell

/-- The machine's whole state (10_state.md R34). -/
structure State where
  /-- R0 to R7 (R20). -/
  regs : RegFile
  /-- The PC: during a step, the address of the instruction plus 1 (R23, R24). -/
  pc : Word
  /-- COND (R25). -/
  cond : Cond
  /-- The 65536 words, KBSR 0xFE00 and KBDR 0xFE02 included (R31). -/
  mem : Memory
  /-- The run status (R32). -/
  status : Status
  /-- The output log, oldest byte first (R33, D15). -/
  out : List Byte
  /-- The host's queue of pending input bytes, head first (R33, 00_scope.md R10). -/
  inq : List Byte
  /-- IN has written its prompt and is blocked for a byte (R33, 40_dispatch.md R118); log entry 5. -/
  inWait : Bool
  /-- The model's own: the bytes the host appends to `inq` before each coming step, free data that stands for the arrival
  times of 00_scope.md R10. DESIGN CHOICE, safe; log entry 3. -/
  script : List (List Byte)
deriving DecidableEq, Repr, Inhabited

/-- Why a step answers no next state: the run has ended (10_state.md R32; `Final` in 40_dispatch.md R118). -/
inductive Fault where
  /-- Raised by `step` alone, on a HALTED machine; safe: the spec gives it no further step. Log entry 6. -/
  | runHalted
  /-- Raised by `step` alone, on an ABORTED machine; safe: the spec gives it no further step. Log entry 6. -/
  | runAborted (reason : AbortReason) (ia : Word)
deriving DecidableEq, Repr

/-- Why an instruction is refused. -/
inductive Refusal where
  /-- Raised by a refused arm of `exec`, for an instruction without a meaning; safe. No arm raises it now. -/
  | notModelled (mnemonic : String)
deriving DecidableEq, Repr

/-- The machine right after reset (10_state.md R35, 70_reset_and_hazards.md R280). The queue and the script are the host's
and unconstrained there; here empty (DESIGN CHOICE, unsafe for a claim about the run from reset; log entries 2, 3). -/
def State.reset : State :=
  { regs := { r0 := 0, r1 := 0, r2 := 0, r3 := 0, r4 := 0, r5 := 0, r6 := 0, r7 := 0 }
    pc := 0x3000
    cond := .zero
    mem := []
    status := .running
    out := []
    inq := []
    inWait := false
    script := [] }

end Sys2Proof.Machine
end

