-- ==== Sys2Proof/Machine/Ops.lean ====
section
/-! DEFINITION. The named operations over memory, registers, console and status (00_scope.md R14): every read and write of
State goes through these. -/

namespace Sys2Proof.Machine

/-! ## Memory: cells, then words -/

/-- What a cell that is not listed reads as: memory is zero-initialised (10_state.md R35). -/
def Memory.unlisted : Byte := 0

/-- The cell at `k`. -/
def Memory.readByte : Memory → Nat → Byte
  | [], _ => Memory.unlisted
  | c :: m, k => if c.1 = k then c.2 else Memory.readByte m k

/-- The memory with no cell listed at `k`. -/
def Memory.eraseByte (m : Memory) (k : Nat) : Memory := m.filter (fun c => c.1 != k)

/-- List a cell at its place in the rising order. -/
def Memory.insertByte : Memory → Nat → Byte → Memory
  | [], k, b => [(k, b)]
  | c :: m, k, b => if k < c.1 then (k, b) :: c :: m else c :: Memory.insertByte m k b

/-- Write the cell at `k`; a cell that reads as an unlisted one is not listed. -/
def Memory.writeByte (m : Memory) (k : Nat) (b : Byte) : Memory :=
  if b = Memory.unlisted then m.eraseByte k else (m.eraseByte k).insertByte k b

/-- `Store[a]`: the stored word, with no side effect (20_memory.md R58). -/
def Memory.load (m : Memory) (a : Word) : Word := m.readByte (2 * a.toNat) ++ m.readByte (2 * a.toNat + 1)

/-- `Store[a] <- v`. -/
def Memory.store (m : Memory) (a v : Word) : Memory :=
  (m.writeByte (2 * a.toNat) (v.extractLsb' 8 8)).writeByte (2 * a.toNat + 1) (v.extractLsb' 0 8)

/-- The number of byte cells: two for each of the 65536 words (10_state.md R31). -/
def Memory.cells : Nat := 131072

/-- Canonical form from cell `lo` on. -/
def Memory.wfFrom : Nat → Memory → Bool
  | _, [] => true
  | lo, c :: m => decide (lo ≤ c.1) && decide (c.1 < Memory.cells) && c.2 != Memory.unlisted && Memory.wfFrom (c.1 + 1) m

/-- Canonical form: addresses strictly rising and inside memory, no cell that reads as an unlisted one. -/
def Memory.wf (m : Memory) : Bool := Memory.wfFrom 0 m

/-! ## Registers -/

/-- `R[i]` of a register file. -/
def RegFile.get (f : RegFile) : Reg → Word
  | .r0 => f.r0
  | .r1 => f.r1
  | .r2 => f.r2
  | .r3 => f.r3
  | .r4 => f.r4
  | .r5 => f.r5
  | .r6 => f.r6
  | .r7 => f.r7

/-- `R[i] <- v` of a register file. -/
def RegFile.set (f : RegFile) (r : Reg) (v : Word) : RegFile :=
  match r with
  | .r0 => { f with r0 := v }
  | .r1 => { f with r1 := v }
  | .r2 => { f with r2 := v }
  | .r3 => { f with r3 := v }
  | .r4 => { f with r4 := v }
  | .r5 => { f with r5 := v }
  | .r6 => { f with r6 := v }
  | .r7 => { f with r7 := v }

/-- `R[i]` (00_scope.md R14); no register is hardwired (10_state.md R20). -/
def State.reg (s : State) (r : Reg) : Word := s.regs.get r

/-- `R[i] <- v` (00_scope.md R14). COND is not touched (10_state.md R26). -/
def State.setReg (s : State) (r : Reg) (v : Word) : State := { s with regs := s.regs.set r v }

/-- `pc <- target` (00_scope.md R14). -/
def State.setPc (s : State) (target : Word) : State := { s with pc := target }

/-! ## The host's queue and the output log -/

/-- The host appends bytes to the input queue (00_scope.md R10). -/
def State.hostAppend (s : State) (bs : List Byte) : State := { s with inq := s.inq ++ bs }

/-- The host's move before a step: it appends the next entry of its script, if it has one (00_scope.md R10, D27). -/
def State.hostMove (s : State) : State :=
  match s.script with
  | [] => s
  | bs :: rest => { s with inq := s.inq ++ bs, script := rest }

/-- `write_byte` of each byte in turn (00_scope.md R9, R10). `flush()` changes nothing (R10). -/
def State.emit (s : State) (bs : List Byte) : State := { s with out := s.out ++ bs }

/-- The queue after `read_byte()` has taken its head (00_scope.md R10). -/
def State.setQueue (s : State) (q : List Byte) : State := { s with inq := q }

/-! ## Memory access -/

/-- KBSR, the keyboard status register (20_memory.md R53). -/
def kbsr : Word := 0xFE00

/-- KBDR, the keyboard data register (20_memory.md R53). -/
def kbdr : Word := 0xFE02

/-- `Store[a] <- v` on the state. -/
def State.setWord (s : State) (a v : Word) : State := { s with mem := s.mem.store a v }

/-- The poll-and-latch of a KBSR read (20_memory.md R55). -/
def State.poll (s : State) : State :=
  match s.inq with
  | [] => s.setWord kbsr 0x0000
  | b :: q => ((s.setQueue q).setWord kbsr 0x8000).setWord kbdr (b.setWidth 16)

/-- `MemRead(a, 1)`: the word, and the state the read leaves (20_memory.md R54). -/
def State.memRead (s : State) (a : Word) : Word × State :=
  if a = kbsr then (s.poll.mem.load a, s.poll) else (s.mem.load a, s)

/-- `MemWrite(a, 1, v)`: stores anywhere, no side effect (20_memory.md R57). -/
def State.memWrite (s : State) (a v : Word) : State := s.setWord a v

/-- Fetch: the word at the PC through MemRead, and the PC incremented (40_dispatch.md R111). -/
def State.fetch (s : State) : Word × State :=
  ((s.memRead s.pc).1, (s.memRead s.pc).2.setPc (s.pc + 1))

/-! ## Faults and trap entry -/

/-- `ia`, the address of the instruction being executed: the fetch left the PC one past it (40_dispatch.md R111). -/
def State.instrAddr (s : State) : Word := s.pc - 1

/-- `raise Fault(reason, ia)`: the run ends ABORTED, nothing else changes (00_scope.md R14, 60_exceptions.md R250). -/
def State.raise (s : State) (reason : AbortReason) : State := { s with status := .aborted reason s.instrAddr }

/-- The link write `R[7] <- pc` of JSR, JSRR and of trap entry, which saves nothing else (44_trap.md R200,
60_exceptions.md R253). -/
def State.link (s : State) : State := s.setReg .r7 s.pc

/-- Trap return is implicit: the step ends, nothing is restored, and the next fetch is from the PC (60_exceptions.md R254). -/
def State.trapReturn (s : State) : State := s

/-- `status <- HALTED` (44_trap.md R208). -/
def State.enterHalted (s : State) : State := { s with status := .halted }

/-- A step that is not taken because its read_byte has no byte: the state is the one before the fetch, which the PC alone
shows (40_dispatch.md R118 `Blocked`, 00_scope.md R10). Log entry 4. -/
def State.notTaken (s : State) : State := s.setPc s.instrAddr

/-- IN is, or is no longer, blocked for its byte (10_state.md R33). -/
def State.setInWait (s : State) (b : Bool) : State := { s with inWait := b }

/-- The cause code of an abort, the spec's own labels (60_exceptions.md R250). -/
def AbortReason.code : AbortReason → Nat
  | .reservedOpcode _ => 1
  | .unknownTrap _ => 2
  | .trapStringAtKBSR _ => 3
  | .trapStringWrap _ => 4

/-- The exit statuses of the process (00_scope.md R8): names, since the spec gives no numbers; log entry 14. -/
inductive ExitStatus where
  | success
  | usage
  | load
  | abort
deriving DecidableEq, Repr

/-- `terminate(status)`: success at HALT, abnormal at an abort (00_scope.md R9, 40_dispatch.md R116). -/
def Status.exit : Status → Option ExitStatus
  | .running => none
  | .halted => some .success
  | .aborted _ _ => some .abort

end Sys2Proof.Machine
end

