-- ==== Sys2Proof/Machine/Operands.lean ====
section
/-! DEFINITION. Operand assembly (00_scope.md R13, 30_encoding.md R93) and the addressing modes (43_load_store.md R177).
Nothing is scaled: addresses count words. All sums are modulo 65536 (20_memory.md R62). -/

namespace Sys2Proof.Machine

/-- `sext_N(v)`, the source's bit trick (00_scope.md R13). -/
def sext {n : Nat} (v : BitVec n) : Word :=
  if v.msb then v.setWidth 16 ||| (0xFFFF#16 <<< n) else v.setWidth 16

/-- `zext_16(b)` (00_scope.md R13). -/
def zext (b : Byte) : Word := b.setWidth 16

/-- `pc + PCoffsetN`, with the incremented PC (10_state.md R24). -/
def pcRelative {n : Nat} (s : State) (off : BitVec n) : Word := s.pc + sext off

/-- `R[BaseR] + offset6`. -/
def baseOffset (s : State) (base : Reg) (off : BitVec 6) : Word := s.reg base + sext off

/-- The low byte of a word, bits [7:0]. -/
def lowByte (w : Word) : Byte := w.extractLsb' 0 8

/-- The high byte of a word, bits [15:8]. -/
def highByte (w : Word) : Byte := w.extractLsb' 8 8

end Sys2Proof.Machine
end

