-- ==== Sys2Proof/Machine/Flags.lean ====
section
/-! DEFINITION. COND: how a value sets it (10_state.md R25), its one-hot bits (R28) and BR's test (42_control.md R150). -/

namespace Sys2Proof.Machine

/-- The flag `update_flags` gives a value (10_state.md R25). -/
def condOf (v : Word) : Cond :=
  if v.msb then .negative else if v = 0x0000 then .zero else .positive

/-- `condbits`: NEGATIVE 0b100, ZERO 0b010, POSITIVE 0b001 (10_state.md R28, decision D3; log entry 15). -/
def condBits : Cond → BitVec 3
  | .negative => 0b100#3
  | .zero => 0b010#3
  | .positive => 0b001#3

/-- `instr[11:9] & condbits(cond) ≠ 0` (42_control.md R150). -/
def branchTaken (n z p : Bool) (c : Cond) : Bool :=
  (BitVec.ofBool n ++ BitVec.ofBool z ++ BitVec.ofBool p) &&& condBits c != 0#3

/-- `setcc(v)` (10_state.md R25). -/
def State.setcc (s : State) (v : Word) : State := { s with cond := condOf v }

/-- A flag-updating register write: `R[r] <- v`, then `setcc(v)` (10_state.md R26). -/
def State.writeFlagged (s : State) (r : Reg) (v : Word) : State := (s.setReg r v).setcc v

end Sys2Proof.Machine
end

