-- ==== Sys2Proof/Machine/Alu.lean ====
section
/-! DEFINITION. ADD, AND, NOT (41_alu.md). Sources are read before DR is written; nothing faults; overflow wraps (R137). -/

namespace Sys2Proof.Machine

/-- `R[DR] <- R[SR1] + R[SR2]`, setcc (41_alu.md R130). -/
def execAddReg (dr sr1 sr2 : Reg) (s : State) : Host.Outcome State Fault Refusal :=
  .next (s.writeFlagged dr (s.reg sr1 + s.reg sr2))

/-- `R[DR] <- R[SR1] + sext_5(imm5)`, setcc (41_alu.md R131). -/
def execAddImm (dr sr1 : Reg) (imm : BitVec 5) (s : State) : Host.Outcome State Fault Refusal :=
  .next (s.writeFlagged dr (s.reg sr1 + sext imm))

/-- `R[DR] <- R[SR1] & R[SR2]`, setcc (41_alu.md R133). -/
def execAndReg (dr sr1 sr2 : Reg) (s : State) : Host.Outcome State Fault Refusal :=
  .next (s.writeFlagged dr (s.reg sr1 &&& s.reg sr2))

/-- `R[DR] <- R[SR1] & sext_5(imm5)`, setcc (41_alu.md R134). -/
def execAndImm (dr sr1 : Reg) (imm : BitVec 5) (s : State) : Host.Outcome State Fault Refusal :=
  .next (s.writeFlagged dr (s.reg sr1 &&& sext imm))

/-- `R[DR] <- ~R[SR]`, setcc (41_alu.md R136). -/
def execNot (dr sr : Reg) (s : State) : Host.Outcome State Fault Refusal :=
  .next (s.writeFlagged dr (~~~ s.reg sr))

end Sys2Proof.Machine
end

