-- ==== Sys2Proof/Config.lean ====
section
/-! DEFINITION. The parameters the spec leaves open (00_scope.md R8, 92_eei_decisions.md D5, D6, D12, D13), each an opaque
constant: no value of any of them can be proved, so a claim holds for every value. Log entries 8 to 11. -/

namespace Sys2Proof

/-- UNKNOWN_TRAP: what a TRAP with an undefined vector does (44_trap.md R209). -/
inductive UnknownTrap where
  | noop
  | fault
deriving DecidableEq, Repr, Inhabited

/-- JSRR_BASE_READ: when JSRR reads BaseR relative to its write of R7 (42_control.md R154). -/
inductive JsrrBaseRead where
  | afterLink
  | beforeLink
deriving DecidableEq, Repr, Inhabited

/-- UNKNOWN_TRAP, open (D6). DESIGN CHOICE: left free, safe; log entry 8. -/
opaque Config.unknownTrap : UnknownTrap

/-- JSRR_BASE_READ, open (D5). DESIGN CHOICE: left free, safe; log entry 9. -/
opaque Config.jsrrBaseRead : JsrrBaseRead

/-- IN_PROMPT, open with no default bytes (D12). DESIGN CHOICE: left free, safe; log entry 10. -/
opaque Config.inPrompt : List Byte

/-- The bytes of HALT_NOTICE before its HALT (D13). DESIGN CHOICE: left free, safe; log entry 11. -/
opaque Config.haltNoticeBefore : List Byte

/-- The bytes of HALT_NOTICE after its HALT (D13). DESIGN CHOICE: left free, safe; log entry 11. -/
opaque Config.haltNoticeAfter : List Byte

/-- The four bytes that HALT_NOTICE contains (00_scope.md R8). -/
def Config.haltBytes : List Byte := [0x48#8, 0x41#8, 0x4C#8, 0x54#8]

/-- HALT_NOTICE: any bytes, so long as they contain HALT (00_scope.md R8, D13). -/
def Config.haltNotice : List Byte := Config.haltNoticeBefore ++ Config.haltBytes ++ Config.haltNoticeAfter

end Sys2Proof
end

