-- ==== Sys2Proof/Machine/Control.lean ====
section
/-! DEFINITION. BR, JMP, JSR, JSRR (42_control.md). None writes COND (10_state.md R26); targets are any 16-bit address. -/

namespace Sys2Proof.Machine

/-- If the condition bits meet COND, `pc <- pc + sext_9` (42_control.md R150); otherwise only the fetch's increment stands. -/
def execBr (n z p : Bool) (off : BitVec 9) (s : State) : Host.Outcome State Fault Refusal :=
  .next (if branchTaken n z p s.cond then s.setPc (pcRelative s off) else s)

/-- `pc <- R[BaseR]` (42_control.md R152). -/
def execJmp (base : Reg) (s : State) : Host.Outcome State Fault Refusal :=
  .next (s.setPc (s.reg base))

/-- `R[7] <- pc`, then `pc <- pc + sext_11` (42_control.md R153). -/
def execJsr (off : BitVec 11) (s : State) : Host.Outcome State Fault Refusal :=
  .next (s.link.setPc (pcRelative s off))

/-- JSRR for either value of JSRR_BASE_READ (42_control.md R154): BaseR read after, or before, the R7 write. -/
def jsrrCall (order : JsrrBaseRead) (base : Reg) (s : State) : State :=
  match order with
  | .afterLink => s.link.setPc (s.link.reg base)
  | .beforeLink => s.link.setPc (s.reg base)

/-- JSRR with the parameter left open (42_control.md R154, D5; log entry 9). -/
def execJsrr (base : Reg) (s : State) : Host.Outcome State Fault Refusal :=
  .next (jsrrCall Config.jsrrBaseRead base s)

end Sys2Proof.Machine
end

