-- ==== Sys2Proof/Machine/LoadStore.lean ====
section
/-! DEFINITION. LD, LDI, LDR, LEA, ST, STI, STR (43_load_store.md). Every read is a MemRead, so a read of KBSR polls
(20_memory.md R60). Nothing faults. -/

namespace Sys2Proof.Machine

/-- `R[DR] <- MemRead(ea)`, setcc, on the state the read leaves. -/
def loadTo (dr : Reg) (ea : Word) (s : State) : State := (s.memRead ea).2.writeFlagged dr (s.memRead ea).1

/-- LD (43_load_store.md R170). -/
def execLd (dr : Reg) (off : BitVec 9) (s : State) : Host.Outcome State Fault Refusal :=
  .next (loadTo dr (pcRelative s off) s)

/-- LDI: the pointer read, then the load through it (43_load_store.md R171). -/
def execLdi (dr : Reg) (off : BitVec 9) (s : State) : Host.Outcome State Fault Refusal :=
  .next (loadTo dr (s.memRead (pcRelative s off)).1 (s.memRead (pcRelative s off)).2)

/-- LDR: the base is read before DR is written (43_load_store.md R172). -/
def execLdr (dr base : Reg) (off : BitVec 6) (s : State) : Host.Outcome State Fault Refusal :=
  .next (loadTo dr (baseOffset s base off) s)

/-- LEA: the address itself, no memory access, and it sets COND (43_load_store.md R173). -/
def execLea (dr : Reg) (off : BitVec 9) (s : State) : Host.Outcome State Fault Refusal :=
  .next (s.writeFlagged dr (pcRelative s off))

/-- ST (43_load_store.md R174). -/
def execSt (sr : Reg) (off : BitVec 9) (s : State) : Host.Outcome State Fault Refusal :=
  .next (s.memWrite (pcRelative s off) (s.reg sr))

/-- STI: the pointer read, then the store through it (43_load_store.md R175). -/
def execSti (sr : Reg) (off : BitVec 9) (s : State) : Host.Outcome State Fault Refusal :=
  .next ((s.memRead (pcRelative s off)).2.memWrite (s.memRead (pcRelative s off)).1 (s.reg sr))

/-- STR (43_load_store.md R176). -/
def execStr (sr base : Reg) (off : BitVec 6) (s : State) : Host.Outcome State Fault Refusal :=
  .next (s.memWrite (baseOffset s base off) (s.reg sr))

end Sys2Proof.Machine
end

