-- ==== Sys2Proof/Machine/Reserved.lean ====
section
/-! DEFINITION. The reserved opcodes RTI and RES (45_reserved.md): each ends the run ABORTED, on the state after the fetch. -/

namespace Sys2Proof.Machine

/-- RTI: `raise Fault(ReservedOpcode(0x8), ia)` (45_reserved.md R240, R242). -/
def execRti (s : State) : Host.Outcome State Fault Refusal := .next (s.raise (.reservedOpcode 0x8))

/-- RES: `raise Fault(ReservedOpcode(0xD), ia)` (45_reserved.md R241, R242). -/
def execRes (s : State) : Host.Outcome State Fault Refusal := .next (s.raise (.reservedOpcode 0xD))

end Sys2Proof.Machine
end

