-- ==== Sys2Proof/Machine/Trap.lean ====
section
/-! DEFINITION. TRAP and the trap table (44_trap.md). A routine runs natively inside the TRAP's step, on the state after the
link write `R[7] <- pc`, and leaves the PC alone (R200, R201). Traps return implicitly (60_exceptions.md R254). -/

namespace Sys2Proof.Machine

/-- `R[0] <- zext_16(b)`, setcc: what GETC and IN do with their byte (44_trap.md R203, R206). -/
def State.takeByte (s : State) (b : Byte) (rest : List Byte) : State := (s.setQueue rest).writeFlagged .r0 (zext b)

/-- GETC (44_trap.md R203). With an empty queue the step is not taken (40_dispatch.md R118; log entry 4). -/
def serviceGetc (s : State) : State :=
  match s.inq with
  | [] => s.notTaken
  | b :: rest => (s.link.takeByte b rest).trapReturn

/-- OUT: the low byte of R0 (44_trap.md R204). -/
def serviceOut (s : State) : State := (s.link.emit [lowByte (s.reg .r0)]).trapReturn

/-- The walk of a string from `a`, `above` words below the top of memory: the bytes written, and the fault if it ends in one
(44_trap.md R205, R207, with R213 and R214). `emitWord` gives the bytes of one non-zero word. -/
def stringWalk (m : Memory) (emitWord : Word → List Byte) (above : Nat) (a : Word) : List Byte × Option AbortReason :=
  if a = kbsr then ([], some (.trapStringAtKBSR a))
  else if m.load a = 0x0000 then ([], none)
  else
    match above with
    | 0 => (emitWord (m.load a), some (.trapStringWrap a))
    | k + 1 =>
      let r := stringWalk m emitWord k (a + 1)
      (emitWord (m.load a) ++ r.1, r.2)

/-- The string at `a`: `0xFFFF - a` words lie above it. -/
def stringAt (m : Memory) (emitWord : Word → List Byte) (a : Word) : List Byte × Option AbortReason :=
  stringWalk m emitWord (0xFFFF - a.toNat) a

/-- Write the string R0 points to; a fault of the walk comes after the bytes before it, else the trap returns
(40_dispatch.md R116). R0 is read before the link write: no routine reads R7. -/
def printString (emitWord : Word → List Byte) (s : State) : State :=
  let r := stringAt s.mem emitWord (s.reg .r0)
  match r.2 with
  | none => (s.link.emit r.1).trapReturn
  | some reason => (s.link.emit r.1).raise reason

/-- PUTS: one character a word, its low byte (44_trap.md R205). -/
def putsBytes (w : Word) : List Byte := [lowByte w]

/-- PUTSP: the low byte always, then the high byte if it is not zero (44_trap.md R207). -/
def putspBytes (w : Word) : List Byte := if highByte w = 0x00#8 then [lowByte w] else [lowByte w, highByte w]

/-- PUTS (44_trap.md R205). -/
def servicePuts (s : State) : State := printString putsBytes s

/-- PUTSP (44_trap.md R207). -/
def servicePutsp (s : State) : State := printString putspBytes s

/-- IN from its read_byte on: with a byte, echo it, R0, setcc, return; with none, stay blocked (44_trap.md R206). -/
def inRead (s : State) : State :=
  match s.inq with
  | [] => s.setInWait true
  | b :: rest => (((s.setInWait false).emit [b]).takeByte b rest).trapReturn

/-- IN (44_trap.md R206): the prompt, then the read. Blocked, it is resumed by `inRead` (40_dispatch.md R118; log entry 5). -/
def serviceIn (s : State) : State := inRead (s.link.emit Config.inPrompt)

/-- HALT (44_trap.md R208). -/
def serviceHalt (s : State) : State := (s.link.emit Config.haltNotice).enterHalted

/-- An undefined vector for either value of UNKNOWN_TRAP (44_trap.md R209, R212). -/
def undefinedTrap (policy : UnknownTrap) (vect : BitVec 8) (s : State) : State :=
  match policy with
  | .noop => s.link.trapReturn
  | .fault => s.link.raise (.unknownTrap vect)

/-- `TrapTable.dispatch` (44_trap.md R202), each routine with the link write before it. -/
def trapDispatch (vect : BitVec 8) (s : State) : State :=
  match vect.toNat with
  | 0x20 => serviceGetc s
  | 0x21 => serviceOut s
  | 0x22 => servicePuts s
  | 0x23 => serviceIn s
  | 0x24 => servicePutsp s
  | 0x25 => serviceHalt s
  | _ => undefinedTrap Config.unknownTrap vect s

/-- TRAP with any vector (44_trap.md R200); a well-formed term has an undefined one (log entry 12). -/
def execTrap (vect : BitVec 8) (s : State) : Host.Outcome State Fault Refusal := .next (trapDispatch vect s)

/-- TRAP x20 (44_trap.md R203). -/
def execGetc (s : State) : Host.Outcome State Fault Refusal := .next (serviceGetc s)

/-- TRAP x21 (44_trap.md R204). -/
def execOut (s : State) : Host.Outcome State Fault Refusal := .next (serviceOut s)

/-- TRAP x22 (44_trap.md R205). -/
def execPuts (s : State) : Host.Outcome State Fault Refusal := .next (servicePuts s)

/-- TRAP x23 (44_trap.md R206). -/
def execIn (s : State) : Host.Outcome State Fault Refusal := .next (serviceIn s)

/-- TRAP x24 (44_trap.md R207). -/
def execPutsp (s : State) : Host.Outcome State Fault Refusal := .next (servicePutsp s)

/-- TRAP x25 (44_trap.md R208). -/
def execHalt (s : State) : Host.Outcome State Fault Refusal := .next (serviceHalt s)

end Sys2Proof.Machine
end

