-- ==== Sys2Proof/Machine/Step.lean ====
section
/-! DEFINITION. One step of the dispatcher (40_dispatch.md R110 to R118), and the placing of an instruction where it fetches. -/

namespace Sys2Proof.Machine

/-- One step of a RUNNING machine after the host's move: a blocked IN reads on (R118), any other step fetches, decodes and
executes (R111 to R113). -/
def coreStep (s : State) : Host.Outcome State Fault Refusal :=
  if s.inWait then .next (inRead s) else exec (decode s.fetch.1) s.fetch.2

/-- One step (R110, R118): none for a machine whose run has ended; else the host's move (00_scope.md R10), then the CORE's. -/
def step (s : State) : Host.Outcome State Fault Refusal :=
  match s.status with
  | .halted => .fault .runHalted
  | .aborted reason ia => .fault (.runAborted reason ia)
  | .running => coreStep s.hostMove

/-- Where an instruction is placed to be fetched next: the PC, or the start PC if that is KBSR, whose fetch reads back the
poll's answer and never what was placed (20_memory.md R60, D23); log entry 7. -/
def State.fetchPlace (s : State) : Word := if s.pc = kbsr then 0x3000 else s.pc

/-- The state with the instruction of bits `w` stored where `step` fetches next, running and not blocked, so that the next
step runs it (log entry 7). -/
def State.withFetchWord (s : State) (nbits w : Nat) : State :=
  { s with pc := s.fetchPlace, mem := s.mem.store s.fetchPlace (tableWord nbits w), status := .running, inWait := false }

end Sys2Proof.Machine
end

