-- ==== Sys2Proof/Machine/Boot.lean ====
section
/-! DEFINITION. Boot (70_reset_and_hazards.md R282 to R289): the launch input of the CORE is an initial memory (R284), which
the host builds from image files. The loader is outside the CORE block (00_scope.md R6); it is modelled here all the same. -/

namespace Sys2Proof.Machine

/-- The machine at its first fetch: reset with the initial memory and whatever the host has queued (R284; 10_state.md R35). -/
def State.boot (initial : Memory) (queued : List Byte) (script : List (List Byte)) : State :=
  { State.reset with mem := initial, inq := queued, script := script }

/-- Why an image does not load. -/
inductive LoadError where
  /-- Fewer than 2 bytes (R287). -/
  | truncated
  /-- Missing or unreadable (R287). -/
  | unreadable
  /-- A body of an odd number of bytes (R288, decision D19). -/
  | oddBody
deriving DecidableEq, Repr

/-- Why nothing runs (R282). -/
inductive BootError where
  /-- No image path at all. -/
  | noImage
  /-- Some image failed to load. -/
  | loadFailed (e : LoadError)
deriving DecidableEq, Repr

/-- The exit status of a failed boot (R282; 00_scope.md R8). -/
def BootError.exit : BootError → ExitStatus
  | .noImage => .usage
  | .loadFailed _ => .load

/-- A big-endian word of an image (R285). -/
def imageWord (hi lo : Byte) : Word := hi ++ lo

/-- Load body words from address `k` on; what lies past the top of memory is dropped, not wrapped (R286). -/
def loadBody (m : Memory) : Nat → List Byte → Memory
  | k, hi :: lo :: rest =>
    if k < 65536 then loadBody (m.store (BitVec.ofNat 16 k) (imageWord hi lo)) (k + 1) rest else m
  | _, _ => m

/-- Load one image: origin header, then the body (R285 to R288). -/
def loadImage (m : Memory) (image : Option (List Byte)) : Except LoadError Memory :=
  match image with
  | none => .error .unreadable
  | some (hi :: lo :: body) =>
    if body.length % 2 = 1 then .error .oddBody else .ok (loadBody m (imageWord hi lo).toNat body)
  | some _ => .error .truncated

/-- Load several images in command-line order; later ones overwrite earlier ones (R289). -/
def loadImages (m : Memory) : List (Option (List Byte)) → Except LoadError Memory
  | [] => .ok m
  | i :: is =>
    match loadImage m i with
    | .error e => .error e
    | .ok m' => loadImages m' is

/-- Boot from the images named on the command line, `none` standing for a file that cannot be read (R282). -/
def bootImages (images : List (Option (List Byte))) (queued : List Byte) (script : List (List Byte)) : Except BootError State :=
  match images with
  | [] => .error .noImage
  | i :: is =>
    match loadImages State.reset.mem (i :: is) with
    | .error e => .error (.loadFailed e)
    | .ok m => .ok (State.boot m queued script)

end Sys2Proof.Machine
end

