-- ==== Sys2Proof/Safety.lean ====
section
/-! DEFINITION. The words claims are made in: the machine's invariant, what a flag, a read, a store and a register write mean
in the spec's own terms, and which instruction may write what (10_state.md R22, R26; 20_memory.md R59). -/

namespace Sys2Proof.Machine

/-! ## The invariant -/

/-- Blocked inside IN: running, the instruction behind the PC is IN, R7 holds the link, and the prompt is the end of the
output log (10_state.md R33; 44_trap.md R200, R206). -/
def State.BlockedInIn (s : State) : Prop :=
  s.status = .running ∧ decode (s.mem.load (s.pc - 1)) = .inChar ∧ s.reg .r7 = s.pc ∧ Config.inPrompt <:+ s.out

/-- The machine's invariant: memory is in canonical form, and `inWait` is set only while IN is blocked. -/
def State.Inv (s : State) : Prop := s.mem.wf = true ∧ (s.inWait = true → s.BlockedInIn)

/-- Blocked inside GETC: the next instruction is GETC and the host has supplied no byte (10_state.md R33; log entry 4). -/
def State.waitsInGetc (s : State) : Bool :=
  s.status == .running && !s.inWait && s.pc != kbsr && decode (s.mem.load s.pc) == .getc && s.inq.isEmpty

/-! ## Effects in the spec's terms -/

/-- `c` is the flag of `v`: NEGATIVE if bit 15 is set, ZERO if `v` is 0, else POSITIVE (10_state.md R25). -/
def FlagOf (v : Word) (c : Cond) : Prop :=
  (v.getLsbD 15 = true → c = .negative) ∧ (v = 0 → c = .zero) ∧ (v.getLsbD 15 = false → v ≠ 0 → c = .positive)

/-- `a + off` modulo 65536, for a signed offset. -/
def plusOffset {n : Nat} (a : Word) (off : BitVec n) : Word := a + BitVec.ofInt 16 off.toInt

/-- Every byte cell of memory is kept but those of the words listed: word `a` is the cells `k` with `k / 2 = a`. -/
def KeepsCellsBut (words : List Word) (m m' : Memory) : Prop :=
  ∀ k : Nat, (∀ a ∈ words, k / 2 ≠ a.toNat) → m'.readByte k = m.readByte k

/-- Every register is kept but those listed. -/
def KeepsRegsBut (rs : List Reg) (s t : State) : Prop := ∀ r, r ∉ rs → t.reg r = s.reg r

/-- The host's queue and script, the blocked bit and the output log are kept. -/
def KeepsConsole (s t : State) : Prop :=
  t.out = s.out ∧ t.inq = s.inq ∧ t.inWait = s.inWait ∧ t.script = s.script

/-- Only register `dr` and COND change: `dr` holds `v` and COND is its flag. -/
def WritesFlagged (s t : State) (dr : Reg) (v : Word) : Prop :=
  t.reg dr = v ∧ FlagOf v t.cond ∧ KeepsRegsBut [dr] s t ∧ t.pc = s.pc ∧ t.mem = s.mem ∧ t.status = s.status ∧ KeepsConsole s t

/-- Only the PC changes. -/
def MovesPc (s t : State) (target : Word) : Prop :=
  t.pc = target ∧ t.regs = s.regs ∧ t.cond = s.cond ∧ t.mem = s.mem ∧ t.status = s.status ∧ KeepsConsole s t

/-- Only R7 and the PC change: R7 holds the old PC. -/
def Links (s t : State) (target : Word) : Prop :=
  t.reg .r7 = s.pc ∧ KeepsRegsBut [.r7] s t ∧ t.pc = target ∧ t.cond = s.cond ∧ t.mem = s.mem ∧ t.status = s.status ∧
    KeepsConsole s t

/-- MemRead of address `a` from memory `m` and queue `q`: the value `v` and what is left (20_memory.md R54, R55). -/
def ReadsWord (m : Memory) (q : List Byte) (a v : Word) (m' : Memory) (q' : List Byte) : Prop :=
  (a ≠ 0xFE00#16 → v = m.load a ∧ m' = m ∧ q' = q) ∧
  (a = 0xFE00#16 → q = [] →
    v = 0x0000#16 ∧ m'.load 0xFE00#16 = 0x0000#16 ∧ KeepsCellsBut [0xFE00#16] m m' ∧ q' = []) ∧
  (∀ b rest, a = 0xFE00#16 → q = b :: rest →
    v = 0x8000#16 ∧ m'.load 0xFE00#16 = 0x8000#16 ∧ (m'.load 0xFE02#16).toNat = b.toNat ∧
      KeepsCellsBut [0xFE00#16, 0xFE02#16] m m' ∧ q' = rest)

/-- A load: MemRead of `ea`, then only `dr` and COND change besides what the read changes. -/
def LoadsWord (s t : State) (dr : Reg) (ea : Word) : Prop :=
  ReadsWord s.mem s.inq ea (t.reg dr) t.mem t.inq ∧ FlagOf (t.reg dr) t.cond ∧ KeepsRegsBut [dr] s t ∧ t.pc = s.pc ∧
    t.status = s.status ∧ t.out = s.out ∧ t.inWait = s.inWait ∧ t.script = s.script

/-- A store of `v` at `ea` into the memory `m`: every other byte of `m` is kept, and nothing else of the state changes but
the memory and, where a read came before, the queue. -/
def StoresWord (s t : State) (m : Memory) (ea v : Word) : Prop :=
  t.mem.load ea = v ∧ KeepsCellsBut [ea] m t.mem ∧ t.regs = s.regs ∧ t.cond = s.cond ∧ t.pc = s.pc ∧ t.status = s.status ∧
    t.out = s.out ∧ t.inWait = s.inWait ∧ t.script = s.script

/-- A trap that only writes bytes: R7 linked, the bytes appended to the log, the status and the blocked bit as given, nothing
else changed. -/
def TrapWrites (s t : State) (bytes : List Byte) (status : Status) (blocked : Bool) : Prop :=
  t.reg .r7 = s.pc ∧ KeepsRegsBut [.r7] s t ∧ t.out = s.out ++ bytes ∧ t.status = status ∧ t.pc = s.pc ∧ t.cond = s.cond ∧
    t.mem = s.mem ∧ t.inq = s.inq ∧ t.inWait = blocked ∧ t.script = s.script

/-- A trap that takes the byte `b` into R0: R7 linked, R0 the byte zero-extended, COND its flag (44_trap.md R203, R206). -/
def TrapReads (s t : State) (b : Byte) (rest bytes : List Byte) (blocked : Bool) : Prop :=
  (t.reg .r0).toNat = b.toNat ∧ FlagOf (t.reg .r0) t.cond ∧ t.reg .r7 = s.pc ∧ KeepsRegsBut [.r0, .r7] s t ∧ t.inq = rest ∧
    t.out = s.out ++ bytes ∧ t.pc = s.pc ∧ t.mem = s.mem ∧ t.status = s.status ∧ t.inWait = blocked ∧ t.script = s.script

/-- The words `ws`, none zero, stand in memory from word address `a` on, and none of their addresses is KBSR. -/
def StringWords (m : Memory) (a : Nat) (ws : List Word) : Prop :=
  ∀ j (h : j < ws.length), a + j ≠ 0xFE00 ∧ a + j < 65536 ∧ m.load (BitVec.ofNat 16 (a + j)) = ws[j] ∧ ws[j] ≠ 0

/-- The bytes PUTS writes for a string (44_trap.md R205). -/
def putsString (ws : List Word) : List Byte := ws.map (fun w => BitVec.ofNat 8 w.toNat)

/-- The bytes PUTSP writes for a string: low byte, then the high byte if it is not zero (44_trap.md R207). -/
def putspString (ws : List Word) : List Byte :=
  ws.flatMap (fun w => BitVec.ofNat 8 w.toNat :: if w.toNat / 256 = 0 then [] else [BitVec.ofNat 8 (w.toNat / 256)])

/-! ## Image files -/

/-- A well-formed image file: the two bytes of its origin header and its body (70_reset_and_hazards.md R285). -/
structure Image where
  originHi : Byte
  originLo : Byte
  body : List Byte
deriving DecidableEq, Repr

/-- The file's bytes. -/
def Image.file (i : Image) : Option (List Byte) := some (i.originHi :: i.originLo :: i.body)

/-- The word an image gives to address `x`, first byte high, if it reaches `x` without wrapping (R285, R286). -/
def Image.wordAt (i : Image) (x : Word) : Option Nat :=
  let o := i.originHi.toNat * 256 + i.originLo.toNat
  if o ≤ x.toNat ∧ x.toNat - o < i.body.length / 2 then
    some ((i.body.getD (2 * (x.toNat - o)) 0).toNat * 256 + (i.body.getD (2 * (x.toNat - o) + 1) 0).toNat)
  else none

/-! ## Which instruction may write what -/

/-- The register whose write updates COND (10_state.md R26). -/
def flagTarget : Instr → Option Reg
  | .addReg dr _ _ | .addImm dr _ _ | .andReg dr _ _ | .andImm dr _ _ | .not dr _ => some dr
  | .ld dr _ | .ldi dr _ | .ldr dr _ _ | .lea dr _ => some dr
  | .getc | .inChar => some .r0
  | .br _ _ _ _ | .st _ _ | .jsr _ | .jsrr _ | .str _ _ _ | .rti | .sti _ _ | .jmp _ | .res => none
  | .trap _ | .out | .puts | .putsp | .halt => none

/-- GETC and IN, the instructions that wait for input (44_trap.md R211). -/
def takesInput : Instr → Bool
  | .getc | .inChar => true
  | .br _ _ _ _ | .addReg _ _ _ | .addImm _ _ _ | .ld _ _ | .st _ _ | .jsr _ | .jsrr _ => false
  | .andReg _ _ _ | .andImm _ _ _ | .ldr _ _ _ | .str _ _ _ | .rti | .not _ _ | .ldi _ _ | .sti _ _ => false
  | .jmp _ | .res | .lea _ _ | .trap _ | .out | .puts | .putsp | .halt => false

/-- The general registers an instruction may write (10_state.md R22). -/
def writableRegs : Instr → List Reg
  | .addReg dr _ _ | .addImm dr _ _ | .andReg dr _ _ | .andImm dr _ _ | .not dr _ => [dr]
  | .ld dr _ | .ldi dr _ | .ldr dr _ _ | .lea dr _ => [dr]
  | .jsr _ | .jsrr _ | .trap _ | .out | .puts | .putsp | .halt => [.r7]
  | .getc | .inChar => [.r0, .r7]
  | .br _ _ _ _ | .st _ _ | .str _ _ _ | .rti | .sti _ _ | .jmp _ | .res => []

/-- The instructions that write the PC (10_state.md R24). -/
def transfersControl : Instr → Bool
  | .br _ _ _ _ | .jmp _ | .jsr _ | .jsrr _ => true
  | .addReg _ _ _ | .addImm _ _ _ | .ld _ _ | .st _ _ | .andReg _ _ _ | .andImm _ _ _ | .ldr _ _ _ | .str _ _ _ => false
  | .rti | .not _ _ | .ldi _ _ | .sti _ _ | .res | .lea _ _ => false
  | .trap _ | .getc | .out | .puts | .inChar | .putsp | .halt => false

/-- The word address an instruction stores to, with the pointer STI reads (20_memory.md R59). -/
def storeAddress (i : Instr) (s : State) : Option Word :=
  match i with
  | .st _ off => some (pcRelative s off)
  | .str _ base off => some (baseOffset s base off)
  | .sti _ off => some (s.memRead (pcRelative s off)).1
  | .br _ _ _ _ | .addReg _ _ _ | .addImm _ _ _ | .ld _ _ | .jsr _ | .jsrr _ | .andReg _ _ _ | .andImm _ _ _ => none
  | .ldr _ _ _ | .rti | .not _ _ | .ldi _ _ | .jmp _ | .res | .lea _ _ => none
  | .trap _ | .getc | .out | .puts | .inChar | .putsp | .halt => none

/-- The word addresses an instruction reads with MemRead, beyond the fetch (20_memory.md R59). -/
def memReads (i : Instr) (s : State) : List Word :=
  match i with
  | .ld _ off => [pcRelative s off]
  | .ldi _ off => [pcRelative s off, (s.memRead (pcRelative s off)).1]
  | .ldr _ base off => [baseOffset s base off]
  | .sti _ off => [pcRelative s off]
  | .br _ _ _ _ | .addReg _ _ _ | .addImm _ _ _ | .st _ _ | .jsr _ | .jsrr _ | .andReg _ _ _ | .andImm _ _ _ => []
  | .str _ _ _ | .rti | .not _ _ | .jmp _ | .res | .lea _ _ => []
  | .trap _ | .getc | .out | .puts | .inChar | .putsp | .halt => []

/-- The register a store takes its value from. -/
def storeSource : Instr → Option Reg
  | .st sr _ | .str sr _ _ | .sti sr _ => some sr
  | .br _ _ _ _ | .addReg _ _ _ | .addImm _ _ _ | .ld _ _ | .jsr _ | .jsrr _ | .andReg _ _ _ | .andImm _ _ _ => none
  | .ldr _ _ _ | .rti | .not _ _ | .ldi _ _ | .jmp _ | .res | .lea _ _ => none
  | .trap _ | .getc | .out | .puts | .inChar | .putsp | .halt => none

end Sys2Proof.Machine
end

