-- ==== Sys2Proof/Certificates/Slice0/Obligations.lean ====
section
/-! DEFINITION. The statements for the provers. `exec` is applied to the state after the fetch, so `s.pc` is the address of the
instruction plus 1 throughout (40_dispatch.md R111). FlagOf, ReadsWord, KeepsCellsBut and the other words used are defined in
Safety.lean in the spec's terms. Every statement holds for every value of the open parameters of Config. -/

open Sys2Proof Sys2Proof.Machine

/-! ## Decoding and encoding -/

/-- Example words of each family decode to the instructions they stand for: eleven are the examples of the instruction rules
(41_alu.md to 45_reserved.md), and 0xFF21 is vector T5 of 95_test_vectors.md, OUT (44_trap.md R202) with ignored bits set (the
spec's decision D4). The numbers are the spec's decisions D1 and D2 (log entry 15). -/
def Obligations.DecodesTheExampleWords : Prop :=
  decode 0x1042 = .addReg .r0 .r1 .r2 ∧ decode 0x54A0 = .andImm .r2 .r2 0x00 ∧ decode 0x92BF = .not .r1 .r2 ∧
  decode 0x0403 = .br false true false 0x003 ∧ decode 0x4810 = .jsr 0x010 ∧ decode 0x40C0 = .jsrr .r3 ∧
  decode 0xA401 = .ldi .r2 0x001 ∧ decode 0x673F = .ldr .r3 .r4 0x3F ∧ decode 0x7B9F = .str .r5 .r6 0x1F ∧
  decode 0xF025 = .halt ∧ decode 0xFF21 = .out ∧ decode 0xD123 = .res

/-- The decoder of 30_encoding.md R99, case by case, in the arithmetic of the word's number: `f lo n` is the field of `n` bits
whose lowest bit is `lo`. Opcode numbers and field positions are the spec's decisions D1 and D2, ignored bits D4. R99 gives
`TRAP {vect}` for every word of opcode 0xF; that the vectors 0x20 to 0x25 have constructors of their own is the model's choice
(log entry 12). -/
def Obligations.DecodeReadsTheFieldsOfEveryWord : Prop :=
  ∀ w : Word,
    let f := fun lo n : Nat => w.toNat / 2 ^ lo % 2 ^ n
    let r := fun lo : Nat => [Reg.r0, .r1, .r2, .r3, .r4, .r5, .r6, .r7].getD (f lo 3) .r0
    (f 12 4 = 0x0 → decode w = .br (f 11 1 == 1) (f 10 1 == 1) (f 9 1 == 1) (BitVec.ofNat 9 (f 0 9))) ∧
    (f 12 4 = 0x1 → f 5 1 = 1 → decode w = .addImm (r 9) (r 6) (BitVec.ofNat 5 (f 0 5))) ∧
    (f 12 4 = 0x1 → f 5 1 = 0 → decode w = .addReg (r 9) (r 6) (r 0)) ∧
    (f 12 4 = 0x2 → decode w = .ld (r 9) (BitVec.ofNat 9 (f 0 9))) ∧
    (f 12 4 = 0x3 → decode w = .st (r 9) (BitVec.ofNat 9 (f 0 9))) ∧
    (f 12 4 = 0x4 → f 11 1 = 1 → decode w = .jsr (BitVec.ofNat 11 (f 0 11))) ∧
    (f 12 4 = 0x4 → f 11 1 = 0 → decode w = .jsrr (r 6)) ∧
    (f 12 4 = 0x5 → f 5 1 = 1 → decode w = .andImm (r 9) (r 6) (BitVec.ofNat 5 (f 0 5))) ∧
    (f 12 4 = 0x5 → f 5 1 = 0 → decode w = .andReg (r 9) (r 6) (r 0)) ∧
    (f 12 4 = 0x6 → decode w = .ldr (r 9) (r 6) (BitVec.ofNat 6 (f 0 6))) ∧
    (f 12 4 = 0x7 → decode w = .str (r 9) (r 6) (BitVec.ofNat 6 (f 0 6))) ∧
    (f 12 4 = 0x8 → decode w = .rti) ∧
    (f 12 4 = 0x9 → decode w = .not (r 9) (r 6)) ∧
    (f 12 4 = 0xA → decode w = .ldi (r 9) (BitVec.ofNat 9 (f 0 9))) ∧
    (f 12 4 = 0xB → decode w = .sti (r 9) (BitVec.ofNat 9 (f 0 9))) ∧
    (f 12 4 = 0xC → decode w = .jmp (r 6)) ∧
    (f 12 4 = 0xD → decode w = .res) ∧
    (f 12 4 = 0xE → decode w = .lea (r 9) (BitVec.ofNat 9 (f 0 9))) ∧
    (f 12 4 = 0xF → f 0 8 = 0x20 → decode w = .getc) ∧
    (f 12 4 = 0xF → f 0 8 = 0x21 → decode w = .out) ∧
    (f 12 4 = 0xF → f 0 8 = 0x22 → decode w = .puts) ∧
    (f 12 4 = 0xF → f 0 8 = 0x23 → decode w = .inChar) ∧
    (f 12 4 = 0xF → f 0 8 = 0x24 → decode w = .putsp) ∧
    (f 12 4 = 0xF → f 0 8 = 0x25 → decode w = .halt) ∧
    (f 12 4 = 0xF → f 0 8 < 0x20 ∨ 0x25 < f 0 8 → decode w = .trap (BitVec.ofNat 8 (f 0 8)))

/-- A word that agrees with `w` on the bits its instruction uses decodes alike, whatever the ignored bits hold
(30_encoding.md R95). The spec's decision D4. -/
def Obligations.IgnoredBitsAreIgnored : Prop :=
  ∀ w w' : Word, w' &&& usedBits (decode w) = w &&& usedBits (decode w) → decode w' = decode w

/-- Every word decodes to a well-formed instruction whose row of the opcode table it matches (30_encoding.md R96). The numbers
are the spec's decisions D1 and D2. -/
def Obligations.EveryWordMatchesItsTableRow : Prop :=
  ∀ w : Word, (decode w).wf = true ∧ w &&& tableMask (decode w) = tableMatch (decode w)

/-- No bit of an encoding is dropped: every well-formed instruction, with every operand value, is read back from its word. -/
def Obligations.DecodeOfEncodeIsTheInstruction : Prop :=
  ∀ i : Instr, i.wf = true → decode (encode i) = i

/-- Encoding what a word decodes to gives the word with its ignored bits cleared (30_encoding.md R95; that the encoder writes
zeros there is the model's choice, log entry 13). -/
def Obligations.EncodeOfDecodeClearsIgnoredBits : Prop :=
  ∀ w : Word, encode (decode w) = w &&& usedBits (decode w)

/-! ## Operands, flags, memory -/

/-- 00_scope.md R13: `sext_N` by its bit trick, for the four widths, and `zext_16`. -/
def Obligations.SextIsTheBitTrick : Prop :=
  (∀ n : Nat, n = 5 ∨ n = 6 ∨ n = 9 ∨ n = 11 → ∀ v : BitVec n,
    (sext v).toNat = if v.getLsbD (n - 1) then (v.toNat ||| 0xFFFF <<< n) % 65536 else v.toNat) ∧
  ∀ b : Byte, (zext b).toNat = b.toNat

/-- 20_memory.md R62: every effective address, and the next PC, is the exact sum modulo 65536. -/
def Obligations.EffectiveAddressesWrap : Prop :=
  (∀ (n : Nat) (s : State) (off : BitVec n), n = 9 ∨ n = 11 →
    ((pcRelative s off).toNat : Int) = ((s.pc.toNat : Int) + off.toInt) % 65536) ∧
  (∀ (s : State) (base : Reg) (off : BitVec 6),
    ((baseOffset s base off).toNat : Int) = (((s.reg base).toNat : Int) + off.toInt) % 65536) ∧
  (∀ s : State, s.fetch.2.pc.toNat = (s.pc.toNat + 1) % 65536)

/-- 10_state.md R25: setcc writes COND from the value and nothing else. -/
def Obligations.SetccGivesTheFlagOfTheValue : Prop :=
  ∀ (s : State) (v : Word), FlagOf v (s.setcc v).cond ∧ { s.setcc v with cond := s.cond } = s

/-- 20_memory.md R54, R55: MemRead polls at 0xFE00 and only there, and changes only memory and queue as ReadsWord says. -/
def Obligations.MemReadPollsOnlyAtKbsr : Prop :=
  ∀ (s : State) (a : Word),
    ReadsWord s.mem s.inq a (s.memRead a).1 (s.memRead a).2.mem (s.memRead a).2.inq ∧
    { (s.memRead a).2 with mem := s.mem, inq := s.inq } = s

/-- 20_memory.md R57: MemWrite stores at every address and does nothing else; a word stored to 0xFE00 is never returned by a
later MemRead of it; a word stored to 0xFE02 is returned by KBDR reads until a KBSR read latches a byte. -/
def Obligations.MemWriteStoresAnywhere : Prop :=
  ∀ (s : State) (a v : Word),
    (s.memWrite a v).mem.load a = v ∧ KeepsCellsBut [a] s.mem (s.memWrite a v).mem ∧
    { s.memWrite a v with mem := s.mem } = s ∧
    (a = 0xFE00#16 → ((s.memWrite a v).memRead a).1 = if s.inq = [] then 0x0000#16 else 0x8000#16) ∧
    (a ≠ 0xFE00#16 → (s.memWrite a v).memRead a = (v, s.memWrite a v)) ∧
    (a = 0xFE02#16 → ∀ b : Word, (((s.memWrite a v).memRead b).2.memRead 0xFE02#16).1.toNat =
      if b = 0xFE00#16 then (s.inq.head?.map BitVec.toNat).getD v.toNat else v.toNat)

/-- 20_memory.md R67 (an inference the spec marks as its own): what ST, STR or STI stored is what a later fetch at that address
reads, if the address is not KBSR. -/
def Obligations.StoreIsSeenByTheFetch : Prop :=
  ∀ (i : Instr) (s t : State) (a : Word) (r : Reg),
    exec i s = .next t → storeAddress i s = some a → storeSource i = some r → a ≠ 0xFE00#16 →
      (t.setPc a).fetch.1 = s.reg r

/-! ## Fetch and step -/

/-- 40_dispatch.md R111: the fetch is a MemRead at the PC, then the PC is incremented modulo 65536; the address of the
instruction is kept; nothing else changes; and a PC-relative address of the instruction counts from the incremented PC. -/
def Obligations.FetchReadsThenIncrements : Prop :=
  ∀ s : State,
    ReadsWord s.mem s.inq s.pc s.fetch.1 s.fetch.2.mem s.fetch.2.inq ∧ s.fetch.2.pc.toNat = (s.pc.toNat + 1) % 65536 ∧
    s.fetch.2.instrAddr = s.pc ∧ { s.fetch.2 with mem := s.mem, inq := s.inq, pc := s.pc } = s ∧
    ∀ (n : Nat) (off : BitVec n), n = 9 ∨ n = 11 →
      ((pcRelative s.fetch.2 off).toNat : Int) = ((s.pc.toNat : Int) + 1 + off.toInt) % 65536

/-- A step of a running machine that is not blocked in IN is the host's move, the fetch, and exec of the instruction the word
decodes to; away from KBSR the fetch only moves the PC. The host's move is the model's own (log entry 3). -/
def Obligations.StepRunsTheDecodedInstruction : Prop :=
  ∀ s : State, s.status = .running → s.inWait = false →
    step s = exec (decode s.hostMove.fetch.1) s.hostMove.fetch.2 ∧
    (s.pc ≠ 0xFE00#16 → step s = exec (decode (s.mem.load s.pc)) (s.hostMove.setPc (s.pc + 1)))

/-- An instruction placed by withFetchWord is what the next step runs, with registers, COND, output and the rest as they were
(log entry 7 says what withFetchWord sets). -/
def Obligations.PlacedInstructionRunsNext : Prop :=
  ∀ (s : State) (nbits w : Nat), ∃ t : State,
    step (s.withFetchWord nbits w) = exec (decode (BitVec.ofNat 16 (w % 2 ^ nbits))) t ∧
    t.pc = s.fetchPlace + 1 ∧ (s.pc ≠ 0xFE00#16 → s.fetchPlace = s.pc) ∧ t.regs = s.regs ∧ t.cond = s.cond ∧ t.out = s.out ∧
    t.mem.load s.fetchPlace = BitVec.ofNat 16 (w % 2 ^ nbits) ∧ KeepsCellsBut [s.fetchPlace] s.mem t.mem ∧
    t.inq = s.inq ++ s.script.headD [] ∧ t.script = s.script.tail

/-- A step is taken exactly while the status is RUNNING (40_dispatch.md R110); an ended run stops under the name of its status.
R118 answers Blocked at a GETC, or an IN after its prompt, with an empty queue, and Final for an ended run: that the wait is a
next state is the model's choice (log entries 4 and 5), and so is that an ended run stops as a fault (log entry 6). -/
def Obligations.StepExactlyWhileRunning : Prop :=
  ∀ s : State,
    ((∃ t, step s = .next t) ↔ s.status = .running) ∧ (s.status = .halted ↔ step s = .fault .runHalted) ∧
    ∀ reason ia, s.status = .aborted reason ia ↔ step s = .fault (.runAborted reason ia)

/-- 70_reset_and_hazards.md R283, 30_encoding.md R96 (inferences the spec marks as its own): a zero word only advances the PC. -/
def Obligations.ZeroWordOnlyAdvancesThePc : Prop :=
  ∀ s : State, s.status = .running → s.inWait = false → s.pc ≠ 0xFE00#16 → s.mem.load s.pc = 0 →
    step s = .next (s.hostMove.setPc (s.pc + 1))

/-! ## ALU -/

/-- ADD, both forms: pseudocode, flags and exceptions of 41_alu.md R130, R131, for every operand, DR equal to a source too. -/
def Obligations.AddResults : Prop :=
  (∀ (dr sr1 sr2 : Reg) (s : State), ∃ t v, exec (.addReg dr sr1 sr2) s = .next t ∧ WritesFlagged s t dr v ∧
    v.toNat = ((s.reg sr1).toNat + (s.reg sr2).toNat) % 65536) ∧
  (∀ (dr sr1 : Reg) (imm : BitVec 5) (s : State), ∃ t v, exec (.addImm dr sr1 imm) s = .next t ∧ WritesFlagged s t dr v ∧
    (v.toNat : Int) = ((s.reg sr1).toNat + imm.toInt) % 65536)

/-- AND, both forms: pseudocode, flags and exceptions of 41_alu.md R133, R134, bit by bit; bits 4 to 15 of the immediate are
its sign. -/
def Obligations.AndResults : Prop :=
  (∀ (dr sr1 sr2 : Reg) (s : State), ∃ t v, exec (.andReg dr sr1 sr2) s = .next t ∧ WritesFlagged s t dr v ∧
    ∀ k, v.getLsbD k = ((s.reg sr1).getLsbD k && (s.reg sr2).getLsbD k)) ∧
  (∀ (dr sr1 : Reg) (imm : BitVec 5) (s : State), ∃ t v, exec (.andImm dr sr1 imm) s = .next t ∧ WritesFlagged s t dr v ∧
    ∀ k, v.getLsbD k = ((s.reg sr1).getLsbD k && imm.getLsbD (min k 4)))

/-- NOT: pseudocode, flags and exceptions of 41_alu.md R136. -/
def Obligations.NotResult : Prop :=
  ∀ (dr sr : Reg) (s : State), ∃ t v, exec (.not dr sr) s = .next t ∧ WritesFlagged s t dr v ∧
    v.toNat = 65535 - (s.reg sr).toNat

/-- 41_alu.md R132, R135 (inferences the spec marks as its own): with the immediate in SR2 the register form does the same. -/
def Obligations.ImmediateAndRegisterFormsAgree : Prop :=
  ∀ (dr sr1 sr2 : Reg) (imm : BitVec 5) (s : State), (s.reg sr2).toInt = imm.toInt →
    exec (.addReg dr sr1 sr2) s = exec (.addImm dr sr1 imm) s ∧ exec (.andReg dr sr1 sr2) s = exec (.andImm dr sr1 imm) s

/-- 41_alu.md R138 (an inference the spec marks as its own): NOT, ADD #1, ADD in a scratch register leaves the difference in it,
with its flag in COND. -/
def Obligations.SubtractionBySequence : Prop :=
  ∀ (scratch a b : Reg) (s : State), scratch ≠ a → ∃ t1 t2 t3,
    exec (.not scratch b) s = .next t1 ∧ exec (.addImm scratch scratch 1) t1 = .next t2 ∧
    exec (.addReg scratch a scratch) t2 = .next t3 ∧
    ((t3.reg scratch).toNat : Int) = (((s.reg a).toNat : Int) - (s.reg b).toNat) % 65536 ∧
    FlagOf (t3.reg scratch) t3.cond ∧ KeepsRegsBut [scratch] s t3 ∧ t3.mem = s.mem

/-! ## Control transfer -/

/-- BR: taken exactly when the bit that lines up with COND's flag is set (42_control.md R150, R151; which bit names which flag
is the spec's decision D3, log entry 15). -/
def Obligations.BranchResult : Prop :=
  ∀ (n z p : Bool) (off : BitVec 9) (s : State), ∃ t, exec (.br n z p off) s = .next t ∧
    MovesPc s t (if (n ∧ s.cond = .negative) ∨ (z ∧ s.cond = .zero) ∨ (p ∧ s.cond = .positive) then plusOffset s.pc off
      else s.pc)

/-- JMP: pseudocode, flags and exceptions of 42_control.md R152. -/
def Obligations.JmpResult : Prop :=
  ∀ (base : Reg) (s : State), ∃ t, exec (.jmp base) s = .next t ∧ MovesPc s t (s.reg base)

/-- JSR: pseudocode, flags and exceptions of 42_control.md R153. -/
def Obligations.JsrResult : Prop :=
  ∀ (off : BitVec 11) (s : State), ∃ t, exec (.jsr off) s = .next t ∧ Links s t (plusOffset s.pc off)

/-- JSRR for both values of JSRR_BASE_READ (42_control.md R154, the spec's decision D5; log entry 9): they differ for BaseR = R7
only. -/
def Obligations.JsrrResult : Prop :=
  ∀ (base : Reg) (s : State), ∃ t, exec (.jsrr base) s = .next t ∧
    Links s t (if base = .r7 ∧ Config.jsrrBaseRead = .afterLink then s.pc else s.reg base)

/-! ## Loads and stores -/

/-- LD and LDR: pseudocode, flags and exceptions of 43_load_store.md R170, R172, the poll of KBSR included. -/
def Obligations.LdAndLdrResults : Prop :=
  (∀ (dr : Reg) (off : BitVec 9) (s : State), ∃ t, exec (.ld dr off) s = .next t ∧
    LoadsWord s t dr (plusOffset s.pc off)) ∧
  (∀ (dr base : Reg) (off : BitVec 6) (s : State), ∃ t, exec (.ldr dr base off) s = .next t ∧
    LoadsWord s t dr (plusOffset (s.reg base) off))

/-- LDI: the pointer read, then the load through it, either of which may poll (43_load_store.md R171). -/
def Obligations.LdiResult : Prop :=
  ∀ (dr : Reg) (off : BitVec 9) (s : State), ∃ t ptr m q, exec (.ldi dr off) s = .next t ∧
    ReadsWord s.mem s.inq (plusOffset s.pc off) ptr m q ∧ LoadsWord { s with mem := m, inq := q } t dr ptr

/-- LEA: the address itself, with its flag; memory is not read (43_load_store.md R173). -/
def Obligations.LeaResult : Prop :=
  ∀ (dr : Reg) (off : BitVec 9) (s : State), ∃ t, exec (.lea dr off) s = .next t ∧
    WritesFlagged s t dr (plusOffset s.pc off)

/-- ST and STR: pseudocode, flags and exceptions of 43_load_store.md R174, R176; the queue is not touched, so a store to KBSR
does not poll. -/
def Obligations.StAndStrResults : Prop :=
  (∀ (sr : Reg) (off : BitVec 9) (s : State), ∃ t, exec (.st sr off) s = .next t ∧
    StoresWord s t s.mem (plusOffset s.pc off) (s.reg sr) ∧ t.inq = s.inq) ∧
  (∀ (sr base : Reg) (off : BitVec 6) (s : State), ∃ t, exec (.str sr base off) s = .next t ∧
    StoresWord s t s.mem (plusOffset (s.reg base) off) (s.reg sr) ∧ t.inq = s.inq)

/-- STI: the pointer read, which may poll, then the store through it, which does not (43_load_store.md R175). -/
def Obligations.StiResult : Prop :=
  ∀ (sr : Reg) (off : BitVec 9) (s : State), ∃ t ptr m, exec (.sti sr off) s = .next t ∧
    ReadsWord s.mem s.inq (plusOffset s.pc off) ptr m t.inq ∧ StoresWord s t m ptr (s.reg sr)

/-! ## Traps -/

/-- TRAP with an undefined vector, for both values of UNKNOWN_TRAP (44_trap.md R209, R212, the spec's decision D6; log entry
8): R7 is linked, and the run goes on or is ABORTED. -/
def Obligations.UndefinedTrapResult : Prop :=
  ∀ (vect : BitVec 8) (s : State), vect.toNat < 0x20 ∨ 0x25 < vect.toNat → ∃ t, exec (.trap vect) s = .next t ∧
    TrapWrites s t []
      (match Config.unknownTrap with
        | .noop => s.status
        | .fault => .aborted (.unknownTrap vect) (s.pc - 1)) s.inWait

/-- TRAP with a vector of the trap table runs that row's routine (44_trap.md R200, R202), though such a term is not what the
decoder gives (the model's choice, log entry 12). -/
def Obligations.TrapVectorsSelectTheirRoutines : Prop :=
  ∀ s : State, exec (.trap 0x20) s = exec .getc s ∧ exec (.trap 0x21) s = exec .out s ∧
    exec (.trap 0x22) s = exec .puts s ∧ exec (.trap 0x23) s = exec .inChar s ∧
    exec (.trap 0x24) s = exec .putsp s ∧ exec (.trap 0x25) s = exec .halt s

/-- GETC with a byte waiting: pseudocode, flags and exceptions of 44_trap.md R203, with the link of R200; no echo. -/
def Obligations.GetcResult : Prop :=
  ∀ (s : State) (b : Byte) (rest : List Byte), s.inq = b :: rest → ∃ t, exec .getc s = .next t ∧
    TrapReads s t b rest [] s.inWait

/-- GETC with no byte, before or with the host's move, is not taken: nothing changes but the host's own move (40_dispatch.md
R118, 44_trap.md R211; that a step not taken is a next state is the model's choice, log entry 4). -/
def Obligations.GetcWaitsForTheHost : Prop :=
  ∀ s : State, s.status = .running → s.inWait = false → s.pc ≠ 0xFE00#16 → decode (s.mem.load s.pc) = .getc →
    s.hostMove.inq = [] → step s = .next s.hostMove

/-- OUT: pseudocode, flags and exceptions of 44_trap.md R204, with the link of R200. That the routine changes no other register
and not the PC is R201, the spec's decisions D24 and D7 (log entry 15). -/
def Obligations.OutResult : Prop :=
  ∀ s : State, ∃ t, exec .out s = .next t ∧
    TrapWrites s t [BitVec.ofNat 8 ((s.reg .r0).toNat % 256)] s.status s.inWait

/-- PUTS of a string of non-zero words that ends in a zero word and misses KBSR (44_trap.md R205). -/
def Obligations.PutsResult : Prop :=
  ∀ (s : State) (ws : List Word), StringWords s.mem (s.reg .r0).toNat ws →
    (s.reg .r0).toNat + ws.length < 65536 → (s.reg .r0).toNat + ws.length ≠ 0xFE00 →
    s.mem.load (BitVec.ofNat 16 ((s.reg .r0).toNat + ws.length)) = 0 →
      ∃ t, exec .puts s = .next t ∧ TrapWrites s t (putsString ws) s.status s.inWait

/-- PUTSP of a string of non-zero words that ends in a zero word and misses KBSR (44_trap.md R207). -/
def Obligations.PutspResult : Prop :=
  ∀ (s : State) (ws : List Word), StringWords s.mem (s.reg .r0).toNat ws →
    (s.reg .r0).toNat + ws.length < 65536 → (s.reg .r0).toNat + ws.length ≠ 0xFE00 →
    s.mem.load (BitVec.ofNat 16 ((s.reg .r0).toNat + ws.length)) = 0 →
      ∃ t, exec .putsp s = .next t ∧ TrapWrites s t (putspString ws) s.status s.inWait

/-- A string that reaches KBSR before its end aborts there, after the bytes before it (44_trap.md R213, the spec's decision
D8), and one that does not end by 0xFFFF aborts after that word's bytes (R214, the spec's decision D9). -/
def Obligations.UnendedStringsAbort : Prop :=
  ∀ (s : State) (ws : List Word), StringWords s.mem (s.reg .r0).toNat ws →
    ((s.reg .r0).toNat + ws.length = 0xFE00 →
      (∃ t, exec .puts s = .next t ∧
        TrapWrites s t (putsString ws) (.aborted (.trapStringAtKBSR 0xFE00) (s.pc - 1)) s.inWait) ∧
      (∃ t, exec .putsp s = .next t ∧
        TrapWrites s t (putspString ws) (.aborted (.trapStringAtKBSR 0xFE00) (s.pc - 1)) s.inWait)) ∧
    ((s.reg .r0).toNat + ws.length = 65536 →
      (∃ t, exec .puts s = .next t ∧
        TrapWrites s t (putsString ws) (.aborted (.trapStringWrap 0xFFFF) (s.pc - 1)) s.inWait) ∧
      (∃ t, exec .putsp s = .next t ∧
        TrapWrites s t (putspString ws) (.aborted (.trapStringWrap 0xFFFF) (s.pc - 1)) s.inWait))

/-- IN with a byte waiting: prompt, echo, R0 and its flag (44_trap.md R206), with the link of R200. -/
def Obligations.InResult : Prop :=
  ∀ (s : State) (b : Byte) (rest : List Byte), s.inq = b :: rest → ∃ t, exec .inChar s = .next t ∧
    TrapReads s t b rest (Config.inPrompt ++ [b]) false

/-- IN with no byte: the prompt is in the log and the machine is blocked (44_trap.md R206, 40_dispatch.md R118; the split in
two parts is the model's choice, which R118 allows, log entry 5). -/
def Obligations.InWaitsAfterItsPrompt : Prop :=
  ∀ s : State, s.inq = [] → ∃ t, exec .inChar s = .next t ∧ TrapWrites s t Config.inPrompt s.status true

/-- A machine blocked in IN stays so while the host gives no byte, and with one finishes IN: echo, R0 and its flag, nothing
else, and the next fetch is from the PC as it was (44_trap.md R206, R211; the split is the model's choice, log entry 5). -/
def Obligations.BlockedInResumes : Prop :=
  ∀ s : State, s.status = .running → s.inWait = true →
    (s.hostMove.inq = [] → step s = .next s.hostMove) ∧
    (∀ b rest, s.hostMove.inq = b :: rest → ∃ t, step s = .next t ∧ (t.reg .r0).toNat = b.toNat ∧
      FlagOf (t.reg .r0) t.cond ∧ KeepsRegsBut [.r0] s t ∧ t.out = s.out ++ [b] ∧ t.inq = rest ∧ t.inWait = false ∧
      t.pc = s.pc ∧ t.mem = s.mem ∧ t.status = .running ∧ t.script = s.script.tail)

/-- HALT: a notice that holds the bytes of "HALT", the same for every state, then HALTED (44_trap.md R208; the notice's text is
the spec's decision D13, log entry 11, the final PC its decision D25). -/
def Obligations.HaltResult : Prop :=
  ∃ before after : List Byte, ∀ s : State, ∃ t, exec .halt s = .next t ∧
    TrapWrites s t (before ++ [0x48#8, 0x41#8, 0x4C#8, 0x54#8] ++ after) .halted s.inWait

/-! ## Reserved opcodes -/

/-- RTI and RES abort the run with the address of the instruction, and change nothing else after the fetch; the run then takes
no further step (45_reserved.md R240 to R242; the opcode numbers and the status ABORTED are the spec's decisions D1, D14). -/
def Obligations.ReservedOpcodesAbort : Prop :=
  (∀ s : State, exec .rti s = .next { s with status := .aborted (.reservedOpcode 0x8) (s.pc - 1) }) ∧
  (∀ s : State, exec .res s = .next { s with status := .aborted (.reservedOpcode 0xD) (s.pc - 1) }) ∧
  (∀ (s : State) (w : Word) (t : State), s.status = .running → s.inWait = false → s.hostMove.fetch = (w, t) →
    w.toNat / 4096 = 0x8 ∨ w.toNat / 4096 = 0xD →
      step s = .next { t with status := .aborted (.reservedOpcode (BitVec.ofNat 4 (w.toNat / 4096))) s.pc })

/-! ## The whole machine -/

/-- 10_state.md R26: COND is the flag of the value just written by the instructions listed there, and no other instruction
changes it. (GETC and IN apply setcc when they have their byte.) -/
def Obligations.CondIsSetByTheListedInstructionsOnly : Prop :=
  ∀ (i : Instr) (s t : State), i.wf = true → exec i s = .next t →
    (∀ r, flagTarget i = some r → (takesInput i = true → s.inq ≠ []) → FlagOf (t.reg r) t.cond) ∧
    (flagTarget i = none ∨ (takesInput i = true ∧ s.inq = []) → t.cond = s.cond)

/-- 10_state.md R22: no instruction writes a general register other than the ones listed there for it. -/
def Obligations.RegistersAreWrittenByTheListedInstructionsOnly : Prop :=
  ∀ (i : Instr) (s t : State), i.wf = true → exec i s = .next t → KeepsRegsBut (writableRegs i) s t

/-- 20_memory.md R59, R60: a byte of memory changes only in the word an instruction stores to, or in KBSR and KBDR when it
reads KBSR. -/
def Obligations.MemoryChangesOnlyByStoresAndPolls : Prop :=
  ∀ (i : Instr) (s t : State) (k : Nat), exec i s = .next t → t.mem.readByte k ≠ s.mem.readByte k →
    (∃ a, storeAddress i s = some a ∧ k / 2 = a.toNat) ∨
    (0xFE00#16 ∈ memReads i s ∧ (k / 2 = 0xFE00 ∨ k / 2 = 0xFE02))

/-- 10_state.md R24: an instruction that does not transfer control leaves the PC at the incremented value (a GETC that is not
taken is the model's form of waiting, log entry 4). -/
def Obligations.PcIsWrittenByControlTransfersOnly : Prop :=
  ∀ (i : Instr) (s t : State), i.wf = true → exec i s = .next t → transfersControl i = false →
    (i = .getc → s.inq ≠ []) → t.pc = s.pc

/-- HALTED is entered by the HALT trap and by nothing else (10_state.md R32, 40_dispatch.md R110). -/
def Obligations.HaltedIsEnteredByHaltOnly : Prop :=
  ∀ s t : State, step s = .next t → t.status = .halted →
    s.inWait = false ∧ decode s.hostMove.fetch.1 = .halt

/-- ABORTED is entered only by the faults of 60_exceptions.md R250, each raised by its own instructions, and it records the
instruction's address (the status and the codes are the spec's decision D14). -/
def Obligations.AbortedIsEnteredByTheFourFaultsOnly : Prop :=
  ∀ (s t : State) (reason : AbortReason) (ia : Word), step s = .next t → t.status = .aborted reason ia →
    s.inWait = false ∧ ia = s.pc ∧
    ((reason = .reservedOpcode 0x8 ∧ decode s.hostMove.fetch.1 = .rti) ∨
     (reason = .reservedOpcode 0xD ∧ decode s.hostMove.fetch.1 = .res) ∨
     (∃ v, reason = .unknownTrap v ∧ decode s.hostMove.fetch.1 = .trap v ∧ Config.unknownTrap = .fault) ∨
     ((reason = .trapStringAtKBSR 0xFE00 ∨ reason = .trapStringWrap 0xFFFF) ∧
       (decode s.hostMove.fetch.1 = .puts ∨ decode s.hostMove.fetch.1 = .putsp)))

/-- A step only appends to the output log, and takes at most one byte, the oldest, from the input the host has supplied
(44_trap.md R211, 10_state.md R33; the script is the model's own, log entry 3). -/
def Obligations.ConsoleBytesKeepTheirOrder : Prop :=
  ∀ s t : State, step s = .next t →
    (∃ written, t.out = s.out ++ written) ∧
    (∃ taken, s.inq ++ s.script.headD [] = taken ++ t.inq ∧ taken.length ≤ 1) ∧ t.script = s.script.tail

/-- The output log cannot be read back (10_state.md R33): two machines that differ in their logs alone do the same in a step and
append the same bytes. -/
def Obligations.OutputLogIsNeverReadBack : Prop :=
  ∀ (s t : State) (other : List Byte), step s = .next t →
    ∃ written, t.out = s.out ++ written ∧ step { s with out := other } = .next { t with out := other ++ written }

/-- BR alone reads COND (10_state.md R27, an inference the spec marks as its own): two states that differ in COND alone are
taken by any other instruction to states that differ in COND at most, and not even there if it sets COND. -/
def Obligations.CondIsReadByBrOnly : Prop :=
  ∀ (i : Instr) (s t : State) (c : Cond), i.wf = true → (∀ n z p off, i ≠ .br n z p off) → exec i s = .next t →
    exec i { s with cond := c } =
      .next { t with cond := if flagTarget i ≠ none ∧ (takesInput i = true → s.inq ≠ []) then t.cond else c }

/-- The invariant is kept by every step: memory stays canonical, and the machine is marked blocked only inside IN, with IN's
link and prompt done. -/
def Obligations.StepKeepsTheInvariant : Prop :=
  ∀ s t : State, s.Inv → step s = .next t → t.Inv

/-- The invariant holds at reset, and at the first fetch with any canonical initial memory and any host. -/
def Obligations.InvariantHoldsAtTheStart : Prop :=
  State.reset.Inv ∧ ∀ (m : Memory) (q : List Byte) (sc : List (List Byte)), m.wf = true → (State.boot m q sc).Inv

/-! ## Reset and boot -/

/-- The reset values the spec gives (10_state.md R35, rows R0-R7, PC, COND, memory, status; 70_reset_and_hazards.md R280). -/
def Obligations.ResetValues : Prop :=
  (∀ r, State.reset.reg r = 0) ∧ State.reset.pc = 0x3000 ∧ State.reset.cond = .zero ∧
  (∀ a, State.reset.mem.load a = 0) ∧ State.reset.status = .running

/-- 70_reset_and_hazards.md R286: word k of the body goes to origin + k, words past 0xFFFF are dropped, and no other word
changes. -/
def Obligations.ImageLoadsFromItsOrigin : Prop :=
  ∀ (m : Memory) (hi lo : Byte) (body : List Byte), body.length % 2 = 0 → ∃ m',
    loadImage m (some (hi :: lo :: body)) = .ok m' ∧
    ∀ x : Word,
      let o := hi.toNat * 256 + lo.toNat
      if o ≤ x.toNat ∧ x.toNat - o < body.length / 2 then
        (m'.load x).toNat = (body.getD (2 * (x.toNat - o)) 0).toNat * 256 + (body.getD (2 * (x.toNat - o) + 1) 0).toNat
      else m'.load x = m.load x

/-- Which images do not load and that nothing then runs (70_reset_and_hazards.md R282, R287; the odd body is the spec's decision
D19), and that several load in order, each into the memory the ones before it leave (R289). -/
def Obligations.BootRunsOnlyIfEveryImageLoads : Prop :=
  (∀ m b, loadImage m (some []) = .error .truncated ∧ loadImage m (some [b]) = .error .truncated ∧
    loadImage m none = .error .unreadable) ∧
  (∀ m hi lo body, body.length % 2 = 1 → loadImage m (some (hi :: lo :: body)) = .error .oddBody) ∧
  (∀ m hi lo, loadImage m (some [hi, lo]) = .ok m) ∧
  (∀ q sc, bootImages [] q sc = .error .noImage) ∧
  (∀ m, loadImages m [] = .ok m) ∧
  (∀ m i is m', loadImage m i = .ok m' → loadImages m (i :: is) = loadImages m' is) ∧
  (∀ m i is e, loadImage m i = .error e → loadImages m (i :: is) = .error e) ∧
  (∀ (pre : List (Option (List Byte))) (i : Option (List Byte)) (post : List (Option (List Byte))) (m : Memory) (e : LoadError)
    (q : List Byte) (sc : List (List Byte)),
    loadImages State.reset.mem pre = .ok m → loadImage m i = .error e →
      bootImages (pre ++ i :: post) q sc = .error (.loadFailed e)) ∧
  (∀ (images : List (Option (List Byte))) (m : Memory) (q : List Byte) (sc : List (List Byte)),
    images ≠ [] → loadImages State.reset.mem images = .ok m →
      bootImages images q sc = .ok { State.reset with mem := m, inq := q, script := sc })

/-- 70_reset_and_hazards.md R289: of several images, each word of the memory that boot leaves is the one the last image that
reaches it gives, else 0 as at reset; and the PC is 0x3000 whatever their origins. -/
def Obligations.LaterImagesOverwriteEarlierOnes : Prop :=
  ∀ (images : List Image) (q : List Byte) (sc : List (List Byte)),
    images ≠ [] → (∀ i ∈ images, i.body.length % 2 = 0) → ∃ s, bootImages (images.map Image.file) q sc = .ok s ∧
      s.pc = 0x3000 ∧ ∀ x : Word, (s.mem.load x).toNat = (images.reverse.findSome? (fun i => i.wordAt x)).getD 0
end

