-- ==== Sys2Proof/Laws/Decode.lean ====
section
/-! SUPPORT. The laws of fields: cutting a field from a concatenation or from a masked word, a bit as a field, a field as
arithmetic; and the numbers of registers and trap vectors. -/

namespace Sys2Proof.Laws

/-! ## Fields -/

/-- A field of the low part of a concatenation. -/
theorem field_append_low {n m : Nat} (a : BitVec n) (b : BitVec m) {lo k : Nat} (h : lo + k ≤ m) :
    (a ++ b).extractLsb' lo k = b.extractLsb' lo k := by
  ext i hi
  have : lo + i < m := by omega
  simp [BitVec.getLsbD_append, this]

/-- A field of the high part of a concatenation. -/
theorem field_append_high {n m : Nat} (a : BitVec n) (b : BitVec m) {lo k : Nat} (h : m ≤ lo) :
    (a ++ b).extractLsb' lo k = a.extractLsb' (lo - m) k := by
  ext i hi
  have h1 : ¬ lo + i < m := by omega
  have h2 : lo + i - m = lo - m + i := by omega
  simp [BitVec.getLsbD_append, h1, h2]

/-- A bit of the low part of a concatenation. -/
theorem bit_append_low {n m : Nat} (a : BitVec n) (b : BitVec m) {k : Nat} (h : k < m) :
    (a ++ b).getLsbD k = b.getLsbD k := by
  simp [BitVec.getLsbD_append, h]

/-- A bit of the high part of a concatenation. -/
theorem bit_append_high {n m : Nat} (a : BitVec n) (b : BitVec m) {k : Nat} (h : m ≤ k) :
    (a ++ b).getLsbD k = a.getLsbD (k - m) := by
  simp [BitVec.getLsbD_append, Nat.not_lt.mpr h]

/-- The whole of a bit vector as a field. -/
theorem field_whole {n : Nat} (a : BitVec n) : a.extractLsb' 0 n = a := by
  ext i hi; simp

/-- A field of a masked word. -/
theorem field_and (x m : Word) (lo n : Nat) : field (x &&& m) lo n = field x lo n &&& field m lo n := by
  unfold field; ext i hi; simp

/-- Words that agree under a mask agree on every field the mask covers. -/
theorem field_of_mask {w w' m : Word} (h : w' &&& m = w &&& m) {lo n : Nat} (hm : field m lo n = BitVec.allOnes n) :
    field w' lo n = field w lo n := by
  have := congrArg (fun x => field x lo n) h
  simpa only [field_and, hm, BitVec.and_allOnes] using this

/-- A bit is a field of one bit. -/
theorem bit_eq_field (w : Word) (k : Nat) : w.getLsbD k = (field w k 1).getLsbD 0 := by
  simp [field]

/-- A field in the arithmetic of the word's number (00_scope.md R11). -/
theorem field_eq_ofNat (w : Word) (lo n : Nat) : field w lo n = BitVec.ofNat n (w.toNat / 2 ^ lo % 2 ^ n) := by
  apply BitVec.eq_of_toNat_eq
  simp [field, Nat.shiftRight_eq_div_pow]

/-! ## Registers and trap vectors -/

/-- The number of the register a field names. -/
@[simp] theorem toBits_ofBits (b : BitVec 3) : (Reg.ofBits b).toBits = b := by
  revert b; decide

/-- The register a register's number names. -/
@[simp] theorem ofBits_toBits (r : Reg) : Reg.ofBits r.toBits = r := by
  cases r <;> rfl

/-- A vector that is none of the six stays TRAP (30_encoding.md R97). -/
theorem decodeTrap_other {v : BitVec 8} (h : v.toNat < 0x20 ∨ 0x25 < v.toNat) : decodeTrap v = .trap v := by
  unfold decodeTrap
  split <;> first | omega | rfl

/-- The six vectors, as numbers (44_trap.md R202). -/
theorem isServiceVector_eq (v : BitVec 8) : isServiceVector v = true ↔ 0x20 ≤ v.toNat ∧ v.toNat ≤ 0x25 := by
  simp [isServiceVector, BitVec.le_def]

/-- A trap's instruction is well formed. -/
theorem wf_decodeTrap (v : BitVec 8) : (decodeTrap v).wf = true := by
  by_cases h : 0x20 ≤ v.toNat ∧ v.toNat ≤ 0x25
  · obtain ⟨h1, h2⟩ := h
    unfold decodeTrap
    interval_cases v.toNat <;> rfl
  · rw [decodeTrap_other (by omega)]
    simpa [Instr.wf, ← Bool.not_eq_true, isServiceVector_eq] using h

/-- A trap uses the opcode and the vector, and ignores bits [11:8] (30_encoding.md R91, R95). -/
theorem usedBits_decodeTrap (v : BitVec 8) : usedBits (decodeTrap v) = 0xF0FF := by
  unfold decodeTrap; split <;> rfl

end Sys2Proof.Laws
end

