-- ==== Sys2Proof/Laws/Memory.lean ====
section
/-! SUPPORT. The laws of memory: a read after a write, for cells and for words, with no hypothesis on the memory, and that
every operation keeps the canonical form. -/

namespace Sys2Proof.Laws

open Sys2Proof.Machine

/-! ## Cells -/

theorem readByte_erase_same (m : Memory) (k : Nat) : (m.eraseByte k).readByte k = Memory.unlisted := by
  induction m with
  | nil => rfl
  | cons c m ih =>
    by_cases h : c.1 = k
    · simpa [Memory.eraseByte, h] using ih
    · simpa [Memory.eraseByte, h, Memory.readByte] using ih

theorem readByte_erase_other (m : Memory) {k j : Nat} (hj : j ≠ k) : (m.eraseByte k).readByte j = m.readByte j := by
  induction m with
  | nil => rfl
  | cons c m ih =>
    by_cases h : c.1 = k
    · have hcj : c.1 ≠ j := fun e => hj (e ▸ h)
      simpa [Memory.eraseByte, h, Memory.readByte, hcj, Ne.symm hj] using ih
    · have ih' : Memory.readByte (List.filter (fun c => c.1 != k) m) j = Memory.readByte m j := ih
      simp [Memory.eraseByte, h, Memory.readByte, ih']

theorem readByte_insert_other (m : Memory) (k : Nat) (b : Byte) {j : Nat} (hj : j ≠ k) :
    (m.insertByte k b).readByte j = m.readByte j := by
  induction m with
  | nil => simp [Memory.insertByte, Memory.readByte, Ne.symm hj]
  | cons c m ih =>
    by_cases h : k < c.1 <;> simp [Memory.insertByte, h, Memory.readByte, Ne.symm hj, ih]

theorem readByte_insert_same (m : Memory) (k : Nat) (b : Byte) : ((m.eraseByte k).insertByte k b).readByte k = b := by
  induction m with
  | nil => simp [Memory.eraseByte, Memory.insertByte, Memory.readByte]
  | cons c m ih =>
    by_cases h : c.1 = k
    · simpa [Memory.eraseByte, h] using ih
    · have ih' : Memory.readByte (Memory.insertByte (List.filter (fun c => c.1 != k) m) k b) k = b := ih
      by_cases hlt : k < c.1 <;> simp [Memory.eraseByte, h, Memory.insertByte, hlt, Memory.readByte, ih']

/-- A cell reads as written. -/
theorem readByte_writeByte_same (m : Memory) (k : Nat) (b : Byte) : (m.writeByte k b).readByte k = b := by
  unfold Memory.writeByte
  split
  · next h => rw [readByte_erase_same, h]
  · exact readByte_insert_same m k b

/-- A write leaves every other cell alone. -/
theorem readByte_writeByte_other (m : Memory) (k : Nat) (b : Byte) {j : Nat} (hj : j ≠ k) :
    (m.writeByte k b).readByte j = m.readByte j := by
  unfold Memory.writeByte
  split
  · exact readByte_erase_other m hj
  · rw [readByte_insert_other _ _ _ hj, readByte_erase_other _ hj]

/-! ## Words -/

/-- A store leaves every cell outside its word alone. -/
theorem readByte_store_other (m : Memory) (a v : Word) {k : Nat} (hk : k / 2 ≠ a.toNat) :
    (m.store a v).readByte k = m.readByte k := by
  unfold Memory.store
  rw [readByte_writeByte_other _ _ _ (by omega), readByte_writeByte_other _ _ _ (by omega)]

/-- A word reads as stored (20_memory.md R57, R64). -/
@[simp] theorem load_store_same (m : Memory) (a v : Word) : (m.store a v).load a = v := by
  unfold Memory.load Memory.store
  rw [readByte_writeByte_same, readByte_writeByte_other _ _ _ (by omega), readByte_writeByte_same]
  ext i hi
  simp only [BitVec.getElem_append, BitVec.getElem_extractLsb']
  split
  · simp [BitVec.getLsbD_eq_getElem hi]
  · have h8 : 8 + (i - 8) = i := by omega
    simp [h8, BitVec.getLsbD_eq_getElem hi]

/-- A word depends only on its two cells. -/
theorem load_congr {m m' : Memory} {a : Word} (h : ∀ k, k / 2 = a.toNat → m'.readByte k = m.readByte k) :
    m'.load a = m.load a := by
  unfold Memory.load
  rw [h _ (by omega), h _ (by omega)]

/-- A store leaves every other word alone. -/
theorem load_store_other (m : Memory) (a v : Word) {x : Word} (hx : x ≠ a) : (m.store a v).load x = m.load x := by
  refine load_congr fun k hk => readByte_store_other m a v fun e => hx ?_
  exact BitVec.eq_of_toNat_eq (by omega)

/-- Both cases of a load after a store. -/
theorem load_store (m : Memory) (a v x : Word) : (m.store a v).load x = if x = a then v else m.load x := by
  split
  · next h => rw [h, load_store_same]
  · next h => exact load_store_other m a v h

/-- Memory with nothing listed reads as zero (10_state.md R35). -/
@[simp] theorem load_empty (a : Word) : Memory.load [] a = 0 := by
  have h : (Memory.unlisted ++ Memory.unlisted : Word) = 0 := by decide
  exact h

/-! ## The canonical form -/

theorem wfFrom_le {lo lo' : Nat} (h : lo' ≤ lo) {m : Memory} (hm : Memory.wfFrom lo m = true) :
    Memory.wfFrom lo' m = true := by
  cases m with
  | nil => rfl
  | cons c m =>
    simp only [Memory.wfFrom, Bool.and_eq_true, decide_eq_true_eq] at hm ⊢
    exact ⟨⟨⟨by omega, hm.1.1.2⟩, hm.1.2⟩, hm.2⟩

theorem wfFrom_erase {lo : Nat} {m : Memory} (hm : Memory.wfFrom lo m = true) (k : Nat) :
    Memory.wfFrom lo (m.eraseByte k) = true := by
  induction m generalizing lo with
  | nil => rfl
  | cons c m ih =>
    simp only [Memory.wfFrom, Bool.and_eq_true, decide_eq_true_eq] at hm
    have ih' := ih hm.2
    by_cases h : c.1 = k
    · have : Memory.eraseByte (c :: m) k = Memory.eraseByte m k := by simp [Memory.eraseByte, h]
      rw [this]
      exact wfFrom_le (by omega) ih'
    · have : Memory.eraseByte (c :: m) k = c :: Memory.eraseByte m k := by simp [Memory.eraseByte, h]
      rw [this]
      simp only [Memory.wfFrom, Bool.and_eq_true, decide_eq_true_eq]
      exact ⟨hm.1, ih'⟩

theorem erase_absent (m : Memory) (k : Nat) : ∀ c ∈ m.eraseByte k, c.1 ≠ k := by
  intro c hc
  simpa [Memory.eraseByte] using (List.mem_filter.mp hc).2

theorem wfFrom_insert {lo : Nat} {m : Memory} (hm : Memory.wfFrom lo m = true) {k : Nat} {b : Byte} (hlo : lo ≤ k)
    (hk : k < Memory.cells) (hb : b ≠ Memory.unlisted) (habs : ∀ c ∈ m, c.1 ≠ k) :
    Memory.wfFrom lo (m.insertByte k b) = true := by
  induction m generalizing lo with
  | nil => simp [Memory.insertByte, Memory.wfFrom, hlo, hk, hb]
  | cons c m ih =>
    have hc := habs c (List.mem_cons_self ..)
    simp only [Memory.wfFrom, Bool.and_eq_true, decide_eq_true_eq] at hm
    by_cases hlt : k < c.1
    · simp only [Memory.insertByte, hlt, if_true, Memory.wfFrom, Bool.and_eq_true, decide_eq_true_eq, bne_iff_ne, ne_eq]
      exact ⟨⟨⟨hlo, hk⟩, hb⟩, ⟨⟨by omega, hm.1.1.2⟩, by simpa using hm.1.2⟩, hm.2⟩
    · have ih' := ih hm.2 (by omega) (fun d hd => habs d (List.mem_cons_of_mem _ hd))
      simp only [Memory.insertByte, hlt, if_false, Memory.wfFrom, Bool.and_eq_true, decide_eq_true_eq]
      exact ⟨hm.1, ih'⟩

/-- Writing a cell inside memory keeps the canonical form. -/
theorem wf_writeByte {m : Memory} (hm : m.wf = true) {k : Nat} (hk : k < Memory.cells) (b : Byte) :
    (m.writeByte k b).wf = true := by
  unfold Memory.writeByte Memory.wf
  split
  · exact wfFrom_erase hm k
  · next hb => exact wfFrom_insert (wfFrom_erase hm k) (Nat.zero_le _) hk hb (erase_absent m k)

/-- Storing a word keeps the canonical form. -/
theorem wf_store {m : Memory} (hm : m.wf = true) (a v : Word) : (m.store a v).wf = true := by
  have ha : a.toNat < 65536 := a.isLt
  have h1 : 2 * a.toNat < Memory.cells := by unfold Memory.cells; omega
  have h2 : 2 * a.toNat + 1 < Memory.cells := by unfold Memory.cells; omega
  exact wf_writeByte (wf_writeByte hm h1 _) h2 _

/-- Reset memory is in canonical form. -/
theorem wf_reset : State.reset.mem.wf = true := rfl

end Sys2Proof.Laws
end

