-- ==== Sys2Proof/Laws/State.lean ====
section
/-! SUPPORT. One lemma per field per update of State, and the laws of registers, so that no proof unfolds a record update. -/

namespace Sys2Proof.Laws

open Sys2Proof.Machine

/-! ## Registers -/

/-- A register file after a write. -/
@[simp] theorem get_set (f : RegFile) (r x : Reg) (v : Word) : (f.set r v).get x = if x = r then v else f.get x := by
  cases r <;> cases x <;> rfl

/-- A write of the value a register holds changes nothing. -/
@[simp] theorem set_get (f : RegFile) (r : Reg) : f.set r (f.get r) = f := by
  cases r <;> rfl

/-- Register files that read alike are alike. -/
theorem regs_ext {f g : RegFile} (h : ∀ r, f.get r = g.get r) : f = g := by
  cases f; cases g
  have h0 := h .r0; have h1 := h .r1; have h2 := h .r2; have h3 := h .r3
  have h4 := h .r4; have h5 := h .r5; have h6 := h .r6; have h7 := h .r7
  simp only [RegFile.get] at h0 h1 h2 h3 h4 h5 h6 h7
  subst h0 h1 h2 h3 h4 h5 h6 h7
  rfl

/-- `R[i]` is read from the register file. -/
theorem reg_eq (s : State) (r : Reg) : s.reg r = s.regs.get r := rfl

/-! ## setReg -/

@[simp] theorem setReg_regs (s : State) (r : Reg) (v : Word) : (s.setReg r v).regs = s.regs.set r v := rfl
@[simp] theorem setReg_pc (s : State) (r : Reg) (v : Word) : (s.setReg r v).pc = s.pc := rfl
@[simp] theorem setReg_cond (s : State) (r : Reg) (v : Word) : (s.setReg r v).cond = s.cond := rfl
@[simp] theorem setReg_mem (s : State) (r : Reg) (v : Word) : (s.setReg r v).mem = s.mem := rfl
@[simp] theorem setReg_status (s : State) (r : Reg) (v : Word) : (s.setReg r v).status = s.status := rfl
@[simp] theorem setReg_out (s : State) (r : Reg) (v : Word) : (s.setReg r v).out = s.out := rfl
@[simp] theorem setReg_inq (s : State) (r : Reg) (v : Word) : (s.setReg r v).inq = s.inq := rfl
@[simp] theorem setReg_inWait (s : State) (r : Reg) (v : Word) : (s.setReg r v).inWait = s.inWait := rfl
@[simp] theorem setReg_script (s : State) (r : Reg) (v : Word) : (s.setReg r v).script = s.script := rfl
@[simp] theorem setReg_reg (s : State) (r : Reg) (v : Word) (x : Reg) : (s.setReg r v).reg x = if x = r then v else s.reg x :=
  get_set s.regs r x v

/-! ## setPc -/

@[simp] theorem setPc_regs (s : State) (v : Word) : (s.setPc v).regs = s.regs := rfl
@[simp] theorem setPc_pc (s : State) (v : Word) : (s.setPc v).pc = v := rfl
@[simp] theorem setPc_cond (s : State) (v : Word) : (s.setPc v).cond = s.cond := rfl
@[simp] theorem setPc_mem (s : State) (v : Word) : (s.setPc v).mem = s.mem := rfl
@[simp] theorem setPc_status (s : State) (v : Word) : (s.setPc v).status = s.status := rfl
@[simp] theorem setPc_out (s : State) (v : Word) : (s.setPc v).out = s.out := rfl
@[simp] theorem setPc_inq (s : State) (v : Word) : (s.setPc v).inq = s.inq := rfl
@[simp] theorem setPc_inWait (s : State) (v : Word) : (s.setPc v).inWait = s.inWait := rfl
@[simp] theorem setPc_script (s : State) (v : Word) : (s.setPc v).script = s.script := rfl
@[simp] theorem setPc_reg (s : State) (v : Word) (x : Reg) : (s.setPc v).reg x = s.reg x := rfl

/-! ## hostAppend -/

@[simp] theorem hostAppend_regs (s : State) (bs : List Byte) : (s.hostAppend bs).regs = s.regs := rfl
@[simp] theorem hostAppend_pc (s : State) (bs : List Byte) : (s.hostAppend bs).pc = s.pc := rfl
@[simp] theorem hostAppend_cond (s : State) (bs : List Byte) : (s.hostAppend bs).cond = s.cond := rfl
@[simp] theorem hostAppend_mem (s : State) (bs : List Byte) : (s.hostAppend bs).mem = s.mem := rfl
@[simp] theorem hostAppend_status (s : State) (bs : List Byte) : (s.hostAppend bs).status = s.status := rfl
@[simp] theorem hostAppend_out (s : State) (bs : List Byte) : (s.hostAppend bs).out = s.out := rfl
@[simp] theorem hostAppend_inq (s : State) (bs : List Byte) : (s.hostAppend bs).inq = s.inq ++ bs := rfl
@[simp] theorem hostAppend_inWait (s : State) (bs : List Byte) : (s.hostAppend bs).inWait = s.inWait := rfl
@[simp] theorem hostAppend_script (s : State) (bs : List Byte) : (s.hostAppend bs).script = s.script := rfl
@[simp] theorem hostAppend_reg (s : State) (bs : List Byte) (x : Reg) : (s.hostAppend bs).reg x = s.reg x := rfl

/-! ## emit -/

@[simp] theorem emit_regs (s : State) (bs : List Byte) : (s.emit bs).regs = s.regs := rfl
@[simp] theorem emit_pc (s : State) (bs : List Byte) : (s.emit bs).pc = s.pc := rfl
@[simp] theorem emit_cond (s : State) (bs : List Byte) : (s.emit bs).cond = s.cond := rfl
@[simp] theorem emit_mem (s : State) (bs : List Byte) : (s.emit bs).mem = s.mem := rfl
@[simp] theorem emit_status (s : State) (bs : List Byte) : (s.emit bs).status = s.status := rfl
@[simp] theorem emit_out (s : State) (bs : List Byte) : (s.emit bs).out = s.out ++ bs := rfl
@[simp] theorem emit_inq (s : State) (bs : List Byte) : (s.emit bs).inq = s.inq := rfl
@[simp] theorem emit_inWait (s : State) (bs : List Byte) : (s.emit bs).inWait = s.inWait := rfl
@[simp] theorem emit_script (s : State) (bs : List Byte) : (s.emit bs).script = s.script := rfl
@[simp] theorem emit_reg (s : State) (bs : List Byte) (x : Reg) : (s.emit bs).reg x = s.reg x := rfl

/-! ## setQueue -/

@[simp] theorem setQueue_regs (s : State) (q : List Byte) : (s.setQueue q).regs = s.regs := rfl
@[simp] theorem setQueue_pc (s : State) (q : List Byte) : (s.setQueue q).pc = s.pc := rfl
@[simp] theorem setQueue_cond (s : State) (q : List Byte) : (s.setQueue q).cond = s.cond := rfl
@[simp] theorem setQueue_mem (s : State) (q : List Byte) : (s.setQueue q).mem = s.mem := rfl
@[simp] theorem setQueue_status (s : State) (q : List Byte) : (s.setQueue q).status = s.status := rfl
@[simp] theorem setQueue_out (s : State) (q : List Byte) : (s.setQueue q).out = s.out := rfl
@[simp] theorem setQueue_inq (s : State) (q : List Byte) : (s.setQueue q).inq = q := rfl
@[simp] theorem setQueue_inWait (s : State) (q : List Byte) : (s.setQueue q).inWait = s.inWait := rfl
@[simp] theorem setQueue_script (s : State) (q : List Byte) : (s.setQueue q).script = s.script := rfl
@[simp] theorem setQueue_reg (s : State) (q : List Byte) (x : Reg) : (s.setQueue q).reg x = s.reg x := rfl

/-! ## setWord -/

@[simp] theorem setWord_regs (s : State) (a v : Word) : (s.setWord a v).regs = s.regs := rfl
@[simp] theorem setWord_pc (s : State) (a v : Word) : (s.setWord a v).pc = s.pc := rfl
@[simp] theorem setWord_cond (s : State) (a v : Word) : (s.setWord a v).cond = s.cond := rfl
@[simp] theorem setWord_mem (s : State) (a v : Word) : (s.setWord a v).mem = s.mem.store a v := rfl
@[simp] theorem setWord_status (s : State) (a v : Word) : (s.setWord a v).status = s.status := rfl
@[simp] theorem setWord_out (s : State) (a v : Word) : (s.setWord a v).out = s.out := rfl
@[simp] theorem setWord_inq (s : State) (a v : Word) : (s.setWord a v).inq = s.inq := rfl
@[simp] theorem setWord_inWait (s : State) (a v : Word) : (s.setWord a v).inWait = s.inWait := rfl
@[simp] theorem setWord_script (s : State) (a v : Word) : (s.setWord a v).script = s.script := rfl
@[simp] theorem setWord_reg (s : State) (a v : Word) (x : Reg) : (s.setWord a v).reg x = s.reg x := rfl

/-! ## memWrite -/

@[simp] theorem memWrite_regs (s : State) (a v : Word) : (s.memWrite a v).regs = s.regs := rfl
@[simp] theorem memWrite_pc (s : State) (a v : Word) : (s.memWrite a v).pc = s.pc := rfl
@[simp] theorem memWrite_cond (s : State) (a v : Word) : (s.memWrite a v).cond = s.cond := rfl
@[simp] theorem memWrite_mem (s : State) (a v : Word) : (s.memWrite a v).mem = s.mem.store a v := rfl
@[simp] theorem memWrite_status (s : State) (a v : Word) : (s.memWrite a v).status = s.status := rfl
@[simp] theorem memWrite_out (s : State) (a v : Word) : (s.memWrite a v).out = s.out := rfl
@[simp] theorem memWrite_inq (s : State) (a v : Word) : (s.memWrite a v).inq = s.inq := rfl
@[simp] theorem memWrite_inWait (s : State) (a v : Word) : (s.memWrite a v).inWait = s.inWait := rfl
@[simp] theorem memWrite_script (s : State) (a v : Word) : (s.memWrite a v).script = s.script := rfl
@[simp] theorem memWrite_reg (s : State) (a v : Word) (x : Reg) : (s.memWrite a v).reg x = s.reg x := rfl

/-! ## raise -/

@[simp] theorem raise_regs (s : State) (e : AbortReason) : (s.raise e).regs = s.regs := rfl
@[simp] theorem raise_pc (s : State) (e : AbortReason) : (s.raise e).pc = s.pc := rfl
@[simp] theorem raise_cond (s : State) (e : AbortReason) : (s.raise e).cond = s.cond := rfl
@[simp] theorem raise_mem (s : State) (e : AbortReason) : (s.raise e).mem = s.mem := rfl
@[simp] theorem raise_status (s : State) (e : AbortReason) : (s.raise e).status = .aborted e (s.pc - 1) := rfl
@[simp] theorem raise_out (s : State) (e : AbortReason) : (s.raise e).out = s.out := rfl
@[simp] theorem raise_inq (s : State) (e : AbortReason) : (s.raise e).inq = s.inq := rfl
@[simp] theorem raise_inWait (s : State) (e : AbortReason) : (s.raise e).inWait = s.inWait := rfl
@[simp] theorem raise_script (s : State) (e : AbortReason) : (s.raise e).script = s.script := rfl
@[simp] theorem raise_reg (s : State) (e : AbortReason) (x : Reg) : (s.raise e).reg x = s.reg x := rfl

/-! ## enterHalted -/

@[simp] theorem enterHalted_regs (s : State) : s.enterHalted.regs = s.regs := rfl
@[simp] theorem enterHalted_pc (s : State) : s.enterHalted.pc = s.pc := rfl
@[simp] theorem enterHalted_cond (s : State) : s.enterHalted.cond = s.cond := rfl
@[simp] theorem enterHalted_mem (s : State) : s.enterHalted.mem = s.mem := rfl
@[simp] theorem enterHalted_status (s : State) : s.enterHalted.status = .halted := rfl
@[simp] theorem enterHalted_out (s : State) : s.enterHalted.out = s.out := rfl
@[simp] theorem enterHalted_inq (s : State) : s.enterHalted.inq = s.inq := rfl
@[simp] theorem enterHalted_inWait (s : State) : s.enterHalted.inWait = s.inWait := rfl
@[simp] theorem enterHalted_script (s : State) : s.enterHalted.script = s.script := rfl
@[simp] theorem enterHalted_reg (s : State) (x : Reg) : s.enterHalted.reg x = s.reg x := rfl

/-! ## setInWait -/

@[simp] theorem setInWait_regs (s : State) (b : Bool) : (s.setInWait b).regs = s.regs := rfl
@[simp] theorem setInWait_pc (s : State) (b : Bool) : (s.setInWait b).pc = s.pc := rfl
@[simp] theorem setInWait_cond (s : State) (b : Bool) : (s.setInWait b).cond = s.cond := rfl
@[simp] theorem setInWait_mem (s : State) (b : Bool) : (s.setInWait b).mem = s.mem := rfl
@[simp] theorem setInWait_status (s : State) (b : Bool) : (s.setInWait b).status = s.status := rfl
@[simp] theorem setInWait_out (s : State) (b : Bool) : (s.setInWait b).out = s.out := rfl
@[simp] theorem setInWait_inq (s : State) (b : Bool) : (s.setInWait b).inq = s.inq := rfl
@[simp] theorem setInWait_inWait (s : State) (b : Bool) : (s.setInWait b).inWait = b := rfl
@[simp] theorem setInWait_script (s : State) (b : Bool) : (s.setInWait b).script = s.script := rfl
@[simp] theorem setInWait_reg (s : State) (b : Bool) (x : Reg) : (s.setInWait b).reg x = s.reg x := rfl

/-! ## setcc -/

@[simp] theorem setcc_regs (s : State) (v : Word) : (s.setcc v).regs = s.regs := rfl
@[simp] theorem setcc_pc (s : State) (v : Word) : (s.setcc v).pc = s.pc := rfl
@[simp] theorem setcc_cond (s : State) (v : Word) : (s.setcc v).cond = condOf v := rfl
@[simp] theorem setcc_mem (s : State) (v : Word) : (s.setcc v).mem = s.mem := rfl
@[simp] theorem setcc_status (s : State) (v : Word) : (s.setcc v).status = s.status := rfl
@[simp] theorem setcc_out (s : State) (v : Word) : (s.setcc v).out = s.out := rfl
@[simp] theorem setcc_inq (s : State) (v : Word) : (s.setcc v).inq = s.inq := rfl
@[simp] theorem setcc_inWait (s : State) (v : Word) : (s.setcc v).inWait = s.inWait := rfl
@[simp] theorem setcc_script (s : State) (v : Word) : (s.setcc v).script = s.script := rfl
@[simp] theorem setcc_reg (s : State) (v : Word) (x : Reg) : (s.setcc v).reg x = s.reg x := rfl

/-! ## writeFlagged -/

@[simp] theorem writeFlagged_regs (s : State) (r : Reg) (v : Word) : (s.writeFlagged r v).regs = s.regs.set r v := rfl
@[simp] theorem writeFlagged_pc (s : State) (r : Reg) (v : Word) : (s.writeFlagged r v).pc = s.pc := rfl
@[simp] theorem writeFlagged_cond (s : State) (r : Reg) (v : Word) : (s.writeFlagged r v).cond = condOf v := rfl
@[simp] theorem writeFlagged_mem (s : State) (r : Reg) (v : Word) : (s.writeFlagged r v).mem = s.mem := rfl
@[simp] theorem writeFlagged_status (s : State) (r : Reg) (v : Word) : (s.writeFlagged r v).status = s.status := rfl
@[simp] theorem writeFlagged_out (s : State) (r : Reg) (v : Word) : (s.writeFlagged r v).out = s.out := rfl
@[simp] theorem writeFlagged_inq (s : State) (r : Reg) (v : Word) : (s.writeFlagged r v).inq = s.inq := rfl
@[simp] theorem writeFlagged_inWait (s : State) (r : Reg) (v : Word) : (s.writeFlagged r v).inWait = s.inWait := rfl
@[simp] theorem writeFlagged_script (s : State) (r : Reg) (v : Word) : (s.writeFlagged r v).script = s.script := rfl
@[simp] theorem writeFlagged_reg (s : State) (r : Reg) (v : Word) (x : Reg) : (s.writeFlagged r v).reg x = if x = r then v else s.reg x :=
  get_set s.regs r x v

/-! ## link -/

@[simp] theorem link_regs (s : State) : s.link.regs = s.regs.set .r7 s.pc := rfl
@[simp] theorem link_pc (s : State) : s.link.pc = s.pc := rfl
@[simp] theorem link_cond (s : State) : s.link.cond = s.cond := rfl
@[simp] theorem link_mem (s : State) : s.link.mem = s.mem := rfl
@[simp] theorem link_status (s : State) : s.link.status = s.status := rfl
@[simp] theorem link_out (s : State) : s.link.out = s.out := rfl
@[simp] theorem link_inq (s : State) : s.link.inq = s.inq := rfl
@[simp] theorem link_inWait (s : State) : s.link.inWait = s.inWait := rfl
@[simp] theorem link_script (s : State) : s.link.script = s.script := rfl
@[simp] theorem link_reg (s : State) (x : Reg) : s.link.reg x = if x = .r7 then s.pc else s.reg x :=
  get_set s.regs .r7 x s.pc

/-! ## takeByte -/

@[simp] theorem takeByte_regs (s : State) (b : Byte) (q : List Byte) : (s.takeByte b q).regs = s.regs.set .r0 (zext b) := rfl
@[simp] theorem takeByte_pc (s : State) (b : Byte) (q : List Byte) : (s.takeByte b q).pc = s.pc := rfl
@[simp] theorem takeByte_cond (s : State) (b : Byte) (q : List Byte) : (s.takeByte b q).cond = condOf (zext b) := rfl
@[simp] theorem takeByte_mem (s : State) (b : Byte) (q : List Byte) : (s.takeByte b q).mem = s.mem := rfl
@[simp] theorem takeByte_status (s : State) (b : Byte) (q : List Byte) : (s.takeByte b q).status = s.status := rfl
@[simp] theorem takeByte_out (s : State) (b : Byte) (q : List Byte) : (s.takeByte b q).out = s.out := rfl
@[simp] theorem takeByte_inq (s : State) (b : Byte) (q : List Byte) : (s.takeByte b q).inq = q := rfl
@[simp] theorem takeByte_inWait (s : State) (b : Byte) (q : List Byte) : (s.takeByte b q).inWait = s.inWait := rfl
@[simp] theorem takeByte_script (s : State) (b : Byte) (q : List Byte) : (s.takeByte b q).script = s.script := rfl
@[simp] theorem takeByte_reg (s : State) (b : Byte) (q : List Byte) (x : Reg) : (s.takeByte b q).reg x = if x = .r0 then (zext b) else s.reg x :=
  get_set s.regs .r0 x (zext b)

/-! ## notTaken -/

@[simp] theorem notTaken_regs (s : State) : s.notTaken.regs = s.regs := rfl
@[simp] theorem notTaken_pc (s : State) : s.notTaken.pc = s.pc - 1 := rfl
@[simp] theorem notTaken_cond (s : State) : s.notTaken.cond = s.cond := rfl
@[simp] theorem notTaken_mem (s : State) : s.notTaken.mem = s.mem := rfl
@[simp] theorem notTaken_status (s : State) : s.notTaken.status = s.status := rfl
@[simp] theorem notTaken_out (s : State) : s.notTaken.out = s.out := rfl
@[simp] theorem notTaken_inq (s : State) : s.notTaken.inq = s.inq := rfl
@[simp] theorem notTaken_inWait (s : State) : s.notTaken.inWait = s.inWait := rfl
@[simp] theorem notTaken_script (s : State) : s.notTaken.script = s.script := rfl
@[simp] theorem notTaken_reg (s : State) (x : Reg) : s.notTaken.reg x = s.reg x := rfl

/-! ## trapReturn -/

@[simp] theorem trapReturn_regs (s : State) : s.trapReturn.regs = s.regs := rfl
@[simp] theorem trapReturn_pc (s : State) : s.trapReturn.pc = s.pc := rfl
@[simp] theorem trapReturn_cond (s : State) : s.trapReturn.cond = s.cond := rfl
@[simp] theorem trapReturn_mem (s : State) : s.trapReturn.mem = s.mem := rfl
@[simp] theorem trapReturn_status (s : State) : s.trapReturn.status = s.status := rfl
@[simp] theorem trapReturn_out (s : State) : s.trapReturn.out = s.out := rfl
@[simp] theorem trapReturn_inq (s : State) : s.trapReturn.inq = s.inq := rfl
@[simp] theorem trapReturn_inWait (s : State) : s.trapReturn.inWait = s.inWait := rfl
@[simp] theorem trapReturn_script (s : State) : s.trapReturn.script = s.script := rfl
@[simp] theorem trapReturn_reg (s : State) (x : Reg) : s.trapReturn.reg x = s.reg x := rfl

end Sys2Proof.Laws
end

