-- ==== Sys2Proof/Laws/Ops.lean ====
section
/-! SUPPORT. One lemma per shared operation that says what it can do: flags, sign extension, the poll, MemRead, the fetch, the
host's move, the string walk. Proofs cite these instead of unfolding the operation. -/

namespace Sys2Proof.Laws

open Sys2Proof.Machine

/-! ## Flags and operands -/

/-- setcc gives the flag of the value (10_state.md R25). -/
theorem flagOf_condOf (v : Word) : FlagOf v (condOf v) := by
  have hm : v.msb = v.getLsbD 15 := by simp [BitVec.msb_eq_getLsbD_last]
  unfold FlagOf condOf
  rw [hm]
  exact ⟨fun h => if_pos h, fun h => by subst h; decide, fun h hne => by rw [if_neg (by rw [h]; decide), if_neg hne]⟩

/-- The flag of a value is one flag only. -/
theorem flagOf_unique {v : Word} {c d : Cond} (hc : FlagOf v c) (hd : FlagOf v d) : c = d := by
  cases h15 : v.getLsbD 15
  · by_cases h0 : v = 0
    · rw [hc.2.1 h0, hd.2.1 h0]
    · rw [hc.2.2 h15 h0, hd.2.2 h15 h0]
  · rw [hc.1 h15, hd.1 h15]

/-- The bit trick is the two's-complement extension, for every width up to 16. -/
theorem sext_eq_signExtend {n : Nat} (hn : n ≤ 16) (v : BitVec n) : sext v = v.signExtend 16 := by
  ext i hi
  unfold sext
  by_cases hm : v.msb
  · by_cases hin : i < n
    · simp [hm, BitVec.getElem_signExtend, hin]
    · have hb : (0xFFFF#16).getLsbD (i - n) = true := by
        have : i - n < 16 := by omega
        interval_cases h : i - n <;> decide
      simp [hm, BitVec.getElem_signExtend, hin, hb]
  · by_cases hin : i < n
    · simp [hm, BitVec.getElem_signExtend, hin]
    · simp [hm, BitVec.getElem_signExtend, hin, BitVec.getLsbD_of_ge v i (by omega)]

/-- Adding an extended offset is adding its signed value modulo 65536. -/
theorem add_sext {n : Nat} (hn : n ≤ 16) (a : Word) (v : BitVec n) : a + sext v = plusOffset a v := by
  rw [sext_eq_signExtend hn]; rfl

/-! ## The poll and MemRead -/

@[simp] theorem poll_regs (s : State) : s.poll.regs = s.regs := by unfold State.poll; split <;> rfl
@[simp] theorem poll_pc (s : State) : s.poll.pc = s.pc := by unfold State.poll; split <;> rfl
@[simp] theorem poll_cond (s : State) : s.poll.cond = s.cond := by unfold State.poll; split <;> rfl
@[simp] theorem poll_status (s : State) : s.poll.status = s.status := by unfold State.poll; split <;> rfl
@[simp] theorem poll_out (s : State) : s.poll.out = s.out := by unfold State.poll; split <;> rfl
@[simp] theorem poll_inWait (s : State) : s.poll.inWait = s.inWait := by unfold State.poll; split <;> rfl
@[simp] theorem poll_script (s : State) : s.poll.script = s.script := by unfold State.poll; split <;> rfl

/-- A poll with no byte waiting. -/
theorem poll_empty {s : State} (h : s.inq = []) : s.poll = s.setWord kbsr 0x0000 := by
  unfold State.poll; rw [h]

/-- A poll with a byte waiting. -/
theorem poll_key {s : State} {b : Byte} {q : List Byte} (h : s.inq = b :: q) :
    s.poll = ((s.setQueue q).setWord kbsr 0x8000).setWord kbdr (b.setWidth 16) := by
  unfold State.poll; rw [h]

/-- A MemRead leaves all but memory and the queue alone. -/
theorem memRead_state (s : State) (a : Word) : (s.memRead a).2 = if a = kbsr then s.poll else s := by
  unfold State.memRead; split <;> rfl

@[simp] theorem memRead_regs (s : State) (a : Word) : (s.memRead a).2.regs = s.regs := by rw [memRead_state]; split <;> simp
@[simp] theorem memRead_pc (s : State) (a : Word) : (s.memRead a).2.pc = s.pc := by rw [memRead_state]; split <;> simp
@[simp] theorem memRead_cond (s : State) (a : Word) : (s.memRead a).2.cond = s.cond := by rw [memRead_state]; split <;> simp
@[simp] theorem memRead_status (s : State) (a : Word) : (s.memRead a).2.status = s.status := by
  rw [memRead_state]; split <;> simp
@[simp] theorem memRead_out (s : State) (a : Word) : (s.memRead a).2.out = s.out := by rw [memRead_state]; split <;> simp
@[simp] theorem memRead_inWait (s : State) (a : Word) : (s.memRead a).2.inWait = s.inWait := by
  rw [memRead_state]; split <;> simp
@[simp] theorem memRead_script (s : State) (a : Word) : (s.memRead a).2.script = s.script := by
  rw [memRead_state]; split <;> simp
@[simp] theorem memRead_reg (s : State) (a : Word) (r : Reg) : (s.memRead a).2.reg r = s.reg r := by
  simp [reg_eq]

/-- Away from KBSR a MemRead is a plain load (20_memory.md R54). -/
theorem memRead_plain (s : State) {a : Word} (h : a ≠ kbsr) : s.memRead a = (s.mem.load a, s) := by
  unfold State.memRead; rw [if_neg h]

/-- MemRead of KBSR with no byte waiting (20_memory.md R55). -/
theorem memRead_kbsr_empty {s : State} (h : s.inq = []) : s.memRead kbsr = (0x0000, s.setWord kbsr 0x0000) := by
  unfold State.memRead
  rw [if_pos rfl, poll_empty h]
  simp

/-- MemRead of KBSR with a byte waiting (20_memory.md R55). -/
theorem memRead_kbsr_key {s : State} {b : Byte} {q : List Byte} (h : s.inq = b :: q) :
    s.memRead kbsr = (0x8000, ((s.setQueue q).setWord kbsr 0x8000).setWord kbdr (b.setWidth 16)) := by
  unfold State.memRead
  rw [if_pos rfl, poll_key h]
  simp [load_store_other _ kbdr _ (show kbsr ≠ kbdr by decide)]

/-- The three cases of a MemRead. -/
theorem memRead_cases (s : State) (a : Word) :
    (a ≠ kbsr ∧ s.memRead a = (s.mem.load a, s)) ∨
    (a = kbsr ∧ s.inq = [] ∧ s.memRead a = (0x0000, s.setWord kbsr 0x0000)) ∨
    (∃ b q, a = kbsr ∧ s.inq = b :: q ∧
      s.memRead a = (0x8000, ((s.setQueue q).setWord kbsr 0x8000).setWord kbdr (b.setWidth 16))) := by
  by_cases h : a = kbsr
  · subst h
    cases hq : s.inq with
    | nil => exact .inr (.inl ⟨rfl, rfl, memRead_kbsr_empty hq⟩)
    | cons b q => exact .inr (.inr ⟨b, q, rfl, rfl, memRead_kbsr_key hq⟩)
  · exact .inl ⟨h, memRead_plain s h⟩

/-- A MemRead keeps memory canonical. -/
theorem wf_memRead {s : State} (h : s.mem.wf = true) (a : Word) : (s.memRead a).2.mem.wf = true := by
  rcases memRead_cases s a with ⟨_, e⟩ | ⟨_, _, e⟩ | ⟨b, q, _, _, e⟩ <;> rw [e]
  · exact h
  · exact wf_store h kbsr 0x0000
  · exact wf_store (wf_store h kbsr 0x8000) kbdr (b.setWidth 16)

/-- A MemRead leaves every cell outside KBSR and KBDR alone. -/
theorem readByte_memRead (s : State) (a : Word) {k : Nat} (h1 : k / 2 ≠ kbsr.toNat) (h2 : k / 2 ≠ kbdr.toNat) :
    (s.memRead a).2.mem.readByte k = s.mem.readByte k := by
  rcases memRead_cases s a with ⟨_, e⟩ | ⟨_, _, e⟩ | ⟨b, q, _, _, e⟩ <;> rw [e]
  · exact readByte_store_other s.mem kbsr 0x0000 h1
  · exact (readByte_store_other (s.mem.store kbsr 0x8000) kbdr (b.setWidth 16) h2).trans
      (readByte_store_other s.mem kbsr 0x8000 h1)

/-- A MemRead takes at most the head of the queue. -/
theorem memRead_inq (s : State) (a : Word) : (s.memRead a).2.inq <:+ s.inq := by
  rcases memRead_cases s a with ⟨_, e⟩ | ⟨_, _, e⟩ | ⟨b, q, _, hq, e⟩ <;> rw [e]
  · exact List.suffix_refl s.inq
  · exact hq ▸ List.suffix_cons b q

/-! ## The fetch and the host's move -/

@[simp] theorem fetch_regs (s : State) : s.fetch.2.regs = s.regs := by simp [State.fetch]
@[simp] theorem fetch_reg (s : State) (r : Reg) : s.fetch.2.reg r = s.reg r := by simp [reg_eq]
@[simp] theorem fetch_pc (s : State) : s.fetch.2.pc = s.pc + 1 := rfl
@[simp] theorem fetch_cond (s : State) : s.fetch.2.cond = s.cond := by simp [State.fetch]
@[simp] theorem fetch_mem (s : State) : s.fetch.2.mem = (s.memRead s.pc).2.mem := rfl
@[simp] theorem fetch_status (s : State) : s.fetch.2.status = s.status := by simp [State.fetch]
@[simp] theorem fetch_out (s : State) : s.fetch.2.out = s.out := by simp [State.fetch]
@[simp] theorem fetch_inq (s : State) : s.fetch.2.inq = (s.memRead s.pc).2.inq := rfl
@[simp] theorem fetch_inWait (s : State) : s.fetch.2.inWait = s.inWait := by simp [State.fetch]
@[simp] theorem fetch_script (s : State) : s.fetch.2.script = s.script := by simp [State.fetch]

/-- Away from KBSR the fetch only reads the word and increments the PC (40_dispatch.md R111). -/
theorem fetch_plain (s : State) (h : s.pc ≠ kbsr) : s.fetch = (s.mem.load s.pc, s.setPc (s.pc + 1)) := by
  unfold State.fetch; rw [memRead_plain s h]

@[simp] theorem hostMove_regs (s : State) : s.hostMove.regs = s.regs := by unfold State.hostMove; split <;> rfl
@[simp] theorem hostMove_reg (s : State) (r : Reg) : s.hostMove.reg r = s.reg r := by simp [reg_eq]
@[simp] theorem hostMove_pc (s : State) : s.hostMove.pc = s.pc := by unfold State.hostMove; split <;> rfl
@[simp] theorem hostMove_cond (s : State) : s.hostMove.cond = s.cond := by unfold State.hostMove; split <;> rfl
@[simp] theorem hostMove_mem (s : State) : s.hostMove.mem = s.mem := by unfold State.hostMove; split <;> rfl
@[simp] theorem hostMove_status (s : State) : s.hostMove.status = s.status := by unfold State.hostMove; split <;> rfl
@[simp] theorem hostMove_out (s : State) : s.hostMove.out = s.out := by unfold State.hostMove; split <;> rfl
@[simp] theorem hostMove_inWait (s : State) : s.hostMove.inWait = s.inWait := by unfold State.hostMove; split <;> rfl

/-- The host's move appends the head of the script to the queue. -/
theorem hostMove_inq (s : State) : s.hostMove.inq = s.inq ++ s.script.headD [] := by
  unfold State.hostMove; split <;> simp [*]

/-- The host's move uses up one entry of the script. -/
theorem hostMove_script (s : State) : s.hostMove.script = s.script.tail := by
  unfold State.hostMove; split <;> simp [*]

/-! ## Strings -/

/-- The loop of PUTS and PUTSP, one turn (44_trap.md R205, R207). -/
theorem stringAt_eq (m : Memory) (emitWord : Word → List Byte) (a : Word) :
    stringAt m emitWord a =
      if a = kbsr then ([], some (.trapStringAtKBSR a))
      else if m.load a = 0x0000 then ([], none)
      else if a = 0xFFFF then (emitWord (m.load a), some (.trapStringWrap a))
      else (emitWord (m.load a) ++ (stringAt m emitWord (a + 1)).1, (stringAt m emitWord (a + 1)).2) := by
  have hlt : a.toNat < 65536 := a.isLt
  unfold stringAt
  rw [stringWalk.eq_def]
  split
  · rfl
  · split
    · rfl
    · split
      · next h0 =>
        have : a = 0xFFFF := BitVec.eq_of_toNat_eq (by have : (0xFFFF : Word).toNat = 65535 := rfl; omega)
        rw [if_pos this]
      · next k hk =>
        have hne : a ≠ 0xFFFF := fun e => by subst e; exact absurd hk (Nat.succ_ne_zero k).symm
        have h1 : (a + 1).toNat = a.toNat + 1 := by
          have : (1 : Word).toNat = 1 := rfl
          rw [BitVec.toNat_add, this]; omega
        rw [if_neg hne]
        have : 65535 - (a + 1).toNat = k := by omega
        rw [this]

/-- What a run of non-zero words that misses KBSR adds before the rest of the string. -/
theorem stringAt_words (m : Memory) (emitWord : Word → List Byte) (ws : List Word) :
    ∀ a : Nat, StringWords m a ws → a + ws.length < 65536 →
      stringAt m emitWord (BitVec.ofNat 16 a) =
        (ws.flatMap emitWord ++ (stringAt m emitWord (BitVec.ofNat 16 (a + ws.length))).1,
          (stringAt m emitWord (BitVec.ofNat 16 (a + ws.length))).2) := by
  induction ws with
  | nil => intro a _ _; simp
  | cons w ws ih =>
    intro a hs hlen
    simp only [List.length_cons] at hlen
    obtain ⟨hk, hlt, hload, hne⟩ := hs 0 (by simp)
    simp only [Nat.add_zero, List.getElem_cons_zero] at hk hlt hload hne
    have hkb : BitVec.ofNat 16 a ≠ kbsr := fun e => by
      have := congrArg BitVec.toNat e
      simp [kbsr] at this; omega
    have hff : BitVec.ofNat 16 a ≠ 0xFFFF := fun e => by
      have := congrArg BitVec.toNat e
      simp at this; omega
    have hsucc : BitVec.ofNat 16 a + 1 = BitVec.ofNat 16 (a + 1) := (BitVec.ofNat_add a 1).symm
    have hs' : StringWords m (a + 1) ws := fun j hj => by
      have := hs (j + 1) (by simpa using hj)
      simpa [Nat.add_assoc, Nat.add_comm 1 j] using this
    rw [stringAt_eq, if_neg hkb, hload, if_neg hne, if_neg hff, hsucc, ih (a + 1) hs' (by omega)]
    simp [Nat.add_assoc, Nat.add_comm 1]

end Sys2Proof.Laws
end

