-- ==== Sys2Proof/Laws/Exec.lean ====
section
/-! SUPPORT. What the operations that meanings share do, in the words of Safety.lean: the flagged register write, the link, the
store, the string routines, the reads of GETC and IN, the trap dispatch; what a step can be; and that loading images keeps
memory canonical. -/

namespace Sys2Proof.Laws

open Sys2Proof.Machine

/-! ## Shared operations -/

/-- A flagged write changes the register and COND, nothing else. -/
theorem writeFlagged_writes (s : State) (dr : Reg) (v : Word) : WritesFlagged s (s.writeFlagged dr v) dr v := by
  refine ⟨by simp, flagOf_condOf v, fun r hr => ?_, rfl, rfl, rfl, rfl, rfl, rfl, rfl⟩
  have : r ≠ dr := by simpa using hr
  simp [this]

/-- The link and the jump of JSR and JSRR. -/
theorem link_setPc_links (s : State) (target : Word) : Links s (s.link.setPc target) target := by
  refine ⟨by simp, fun r hr => ?_, rfl, rfl, rfl, rfl, rfl, rfl, rfl, rfl⟩
  have : r ≠ .r7 := by simpa using hr
  simp [this]

/-- A MemWrite stores the word and changes nothing else. -/
theorem memWrite_stores (s : State) (a v : Word) : StoresWord s (s.memWrite a v) s.mem a v :=
  ⟨by simp, fun _ hk => readByte_store_other _ _ _ (hk a (List.mem_cons_self ..)), rfl, rfl, rfl, rfl, rfl, rfl, rfl⟩

/-- A trap that writes bytes and returns. -/
theorem link_emit_writes (s : State) (bytes : List Byte) :
    TrapWrites s (s.link.emit bytes).trapReturn bytes s.status s.inWait := by
  refine ⟨by simp, fun r hr => ?_, rfl, rfl, rfl, rfl, rfl, rfl, rfl, rfl⟩
  have : r ≠ .r7 := by simpa using hr
  simp [this]

/-- A trap that writes bytes and faults. -/
theorem link_emit_raise_writes (s : State) (bytes : List Byte) (e : AbortReason) :
    TrapWrites s ((s.link.emit bytes).raise e) bytes (.aborted e (s.pc - 1)) s.inWait := by
  refine ⟨by simp, fun r hr => ?_, rfl, rfl, rfl, rfl, rfl, rfl, rfl, rfl⟩
  have : r ≠ .r7 := by simpa using hr
  simp [this]

/-- The two ends of a string routine: it returns, or it raises the fault of the walk. -/
theorem printString_cases (emitWord : Word → List Byte) (s : State) :
    let r := stringAt s.mem emitWord (s.reg .r0)
    (r.2 = none ∧ printString emitWord s = (s.link.emit r.1).trapReturn) ∨
    (∃ e, r.2 = some e ∧ printString emitWord s = (s.link.emit r.1).raise e) := by
  intro r
  unfold printString
  cases h : r.2 with
  | none => exact .inl ⟨rfl, by simp only [r] at h ⊢; rw [h]⟩
  | some e => exact .inr ⟨e, rfl, by simp only [r] at h ⊢; rw [h]⟩

/-- GETC with no byte. -/
theorem serviceGetc_empty {s : State} (h : s.inq = []) : serviceGetc s = s.notTaken := by
  unfold serviceGetc; rw [h]

/-- GETC with a byte. -/
theorem serviceGetc_byte {s : State} {b : Byte} {rest : List Byte} (h : s.inq = b :: rest) :
    serviceGetc s = (s.link.takeByte b rest).trapReturn := by
  unfold serviceGetc; rw [h]

/-- IN's read with no byte. -/
theorem inRead_empty {s : State} (h : s.inq = []) : inRead s = s.setInWait true := by
  unfold inRead; rw [h]

/-- IN's read with a byte. -/
theorem inRead_byte {s : State} {b : Byte} {rest : List Byte} (h : s.inq = b :: rest) :
    inRead s = (((s.setInWait false).emit [b]).takeByte b rest).trapReturn := by
  unfold inRead; rw [h]

/-- IN's read never ends the run. -/
@[simp] theorem inRead_status (s : State) : (inRead s).status = s.status := by
  unfold inRead; split <;> rfl

/-- An undefined vector (44_trap.md R209). -/
theorem trapDispatch_undefined {v : BitVec 8} (h : v.toNat < 0x20 ∨ 0x25 < v.toNat) (s : State) :
    trapDispatch v s = undefinedTrap Config.unknownTrap v s := by
  unfold trapDispatch
  split <;> first | omega | rfl

/-! ## What a step can be -/

/-- A step that answers a next state is the resumption of IN or the execution of the fetched instruction, on a running
machine. -/
theorem step_next_cases {s t : State} (h : step s = .next t) :
    s.status = .running ∧
    ((s.inWait = true ∧ t = inRead s.hostMove) ∨
     (s.inWait = false ∧ exec (decode s.hostMove.fetch.1) s.hostMove.fetch.2 = .next t)) := by
  unfold step at h
  split at h
  · cases h
  · cases h
  · next hr =>
    refine ⟨hr, ?_⟩
    unfold coreStep at h
    split at h
    · next hw => exact .inl ⟨by simpa using hw, (Host.Outcome.next.inj h).symm⟩
    · next hw => exact .inr ⟨by simpa using hw, h⟩

/-! ## Boot -/

/-- Loading a body keeps the canonical form. -/
theorem wf_loadBody (body : List Byte) : ∀ {m : Memory} (k : Nat), m.wf = true → (loadBody m k body).wf = true := by
  induction body using List.twoStepInduction with
  | nil => intro m k h; simpa [loadBody] using h
  | singleton b => intro m k h; simpa [loadBody] using h
  | cons_cons hi lo rest ih _ =>
    intro m k h
    unfold loadBody
    split
    · exact ih (k + 1) (wf_store h _ _)
    · exact h

/-- Loading an image keeps the canonical form. -/
theorem wf_loadImage {m m' : Memory} (h : m.wf = true) {i : Option (List Byte)} (hi : loadImage m i = .ok m') :
    m'.wf = true := by
  unfold loadImage at hi
  split at hi
  · cases hi
  · split at hi
    · cases hi
    · cases hi; exact wf_loadBody _ _ h
  · cases hi

/-- Loading several images keeps the canonical form. -/
theorem wf_loadImages (is : List (Option (List Byte))) :
    ∀ {m m' : Memory}, m.wf = true → loadImages m is = .ok m' → m'.wf = true := by
  induction is with
  | nil => intro m m' h e; cases e; exact h
  | cons i is ih =>
    intro m m' h e
    unfold loadImages at e
    split at e
    · cases e
    · next m1 h1 => exact ih (wf_loadImage h h1) e

end Sys2Proof.Laws
end

