-- ==== Sys2Proof/Laws/PerInstr.lean ====
section
/-! SUPPORT. Statements per instruction: the word the encoder writes has the fixed bits of the instruction's row in
spec/opcode_table.json (30_encoding.md R83 to R92). -/

namespace Sys2Proof.Laws

/-- The encoder's word matches the row of the opcode table. -/
def EncodingFits.Statement (i : Instr) : Prop := encode i &&& tableMask i = tableMatch i

/-! One lemma per constructor: bit by bit, each bit being one of a part of the concatenation. -/

theorem EncodingFits.br (n : Bool) (z : Bool) (p : Bool) (off : BitVec 9) : EncodingFits.Statement (.br n z p off) := by
  unfold EncodingFits.Statement encode tableMask tableMatch
  refine BitVec.eq_of_getLsbD_eq fun k hk => ?_
  interval_cases k <;> simp (disch := decide) only [BitVec.getLsbD_and, bit_append_low, bit_append_high, Nat.reduceSub] <;> simp

theorem EncodingFits.addReg (dr : Reg) (sr1 : Reg) (sr2 : Reg) : EncodingFits.Statement (.addReg dr sr1 sr2) := by
  unfold EncodingFits.Statement encode tableMask tableMatch
  refine BitVec.eq_of_getLsbD_eq fun k hk => ?_
  interval_cases k <;> simp (disch := decide) only [BitVec.getLsbD_and, bit_append_low, bit_append_high, Nat.reduceSub] <;> simp

theorem EncodingFits.addImm (dr : Reg) (sr1 : Reg) (imm : BitVec 5) : EncodingFits.Statement (.addImm dr sr1 imm) := by
  unfold EncodingFits.Statement encode tableMask tableMatch
  refine BitVec.eq_of_getLsbD_eq fun k hk => ?_
  interval_cases k <;> simp (disch := decide) only [BitVec.getLsbD_and, bit_append_low, bit_append_high, Nat.reduceSub] <;> simp

theorem EncodingFits.ld (dr : Reg) (off : BitVec 9) : EncodingFits.Statement (.ld dr off) := by
  unfold EncodingFits.Statement encode tableMask tableMatch
  refine BitVec.eq_of_getLsbD_eq fun k hk => ?_
  interval_cases k <;> simp (disch := decide) only [BitVec.getLsbD_and, bit_append_low, bit_append_high, Nat.reduceSub] <;> simp

theorem EncodingFits.st (sr : Reg) (off : BitVec 9) : EncodingFits.Statement (.st sr off) := by
  unfold EncodingFits.Statement encode tableMask tableMatch
  refine BitVec.eq_of_getLsbD_eq fun k hk => ?_
  interval_cases k <;> simp (disch := decide) only [BitVec.getLsbD_and, bit_append_low, bit_append_high, Nat.reduceSub] <;> simp

theorem EncodingFits.jsr (off : BitVec 11) : EncodingFits.Statement (.jsr off) := by
  unfold EncodingFits.Statement encode tableMask tableMatch
  refine BitVec.eq_of_getLsbD_eq fun k hk => ?_
  interval_cases k <;> simp (disch := decide) only [BitVec.getLsbD_and, bit_append_low, bit_append_high, Nat.reduceSub] <;> simp

theorem EncodingFits.jsrr (base : Reg) : EncodingFits.Statement (.jsrr base) := by
  unfold EncodingFits.Statement encode tableMask tableMatch
  refine BitVec.eq_of_getLsbD_eq fun k hk => ?_
  interval_cases k <;> simp (disch := decide) only [BitVec.getLsbD_and, bit_append_low, bit_append_high, Nat.reduceSub] <;> simp

theorem EncodingFits.andReg (dr : Reg) (sr1 : Reg) (sr2 : Reg) : EncodingFits.Statement (.andReg dr sr1 sr2) := by
  unfold EncodingFits.Statement encode tableMask tableMatch
  refine BitVec.eq_of_getLsbD_eq fun k hk => ?_
  interval_cases k <;> simp (disch := decide) only [BitVec.getLsbD_and, bit_append_low, bit_append_high, Nat.reduceSub] <;> simp

theorem EncodingFits.andImm (dr : Reg) (sr1 : Reg) (imm : BitVec 5) : EncodingFits.Statement (.andImm dr sr1 imm) := by
  unfold EncodingFits.Statement encode tableMask tableMatch
  refine BitVec.eq_of_getLsbD_eq fun k hk => ?_
  interval_cases k <;> simp (disch := decide) only [BitVec.getLsbD_and, bit_append_low, bit_append_high, Nat.reduceSub] <;> simp

theorem EncodingFits.ldr (dr : Reg) (base : Reg) (off : BitVec 6) : EncodingFits.Statement (.ldr dr base off) := by
  unfold EncodingFits.Statement encode tableMask tableMatch
  refine BitVec.eq_of_getLsbD_eq fun k hk => ?_
  interval_cases k <;> simp (disch := decide) only [BitVec.getLsbD_and, bit_append_low, bit_append_high, Nat.reduceSub] <;> simp

theorem EncodingFits.str (sr : Reg) (base : Reg) (off : BitVec 6) : EncodingFits.Statement (.str sr base off) := by
  unfold EncodingFits.Statement encode tableMask tableMatch
  refine BitVec.eq_of_getLsbD_eq fun k hk => ?_
  interval_cases k <;> simp (disch := decide) only [BitVec.getLsbD_and, bit_append_low, bit_append_high, Nat.reduceSub] <;> simp

theorem EncodingFits.rti : EncodingFits.Statement .rti := by
  unfold EncodingFits.Statement; decide

theorem EncodingFits.not (dr : Reg) (sr : Reg) : EncodingFits.Statement (.not dr sr) := by
  unfold EncodingFits.Statement encode tableMask tableMatch
  refine BitVec.eq_of_getLsbD_eq fun k hk => ?_
  interval_cases k <;> simp (disch := decide) only [BitVec.getLsbD_and, bit_append_low, bit_append_high, Nat.reduceSub] <;> simp

theorem EncodingFits.ldi (dr : Reg) (off : BitVec 9) : EncodingFits.Statement (.ldi dr off) := by
  unfold EncodingFits.Statement encode tableMask tableMatch
  refine BitVec.eq_of_getLsbD_eq fun k hk => ?_
  interval_cases k <;> simp (disch := decide) only [BitVec.getLsbD_and, bit_append_low, bit_append_high, Nat.reduceSub] <;> simp

theorem EncodingFits.sti (sr : Reg) (off : BitVec 9) : EncodingFits.Statement (.sti sr off) := by
  unfold EncodingFits.Statement encode tableMask tableMatch
  refine BitVec.eq_of_getLsbD_eq fun k hk => ?_
  interval_cases k <;> simp (disch := decide) only [BitVec.getLsbD_and, bit_append_low, bit_append_high, Nat.reduceSub] <;> simp

theorem EncodingFits.jmp (base : Reg) : EncodingFits.Statement (.jmp base) := by
  unfold EncodingFits.Statement encode tableMask tableMatch
  refine BitVec.eq_of_getLsbD_eq fun k hk => ?_
  interval_cases k <;> simp (disch := decide) only [BitVec.getLsbD_and, bit_append_low, bit_append_high, Nat.reduceSub] <;> simp

theorem EncodingFits.res : EncodingFits.Statement .res := by
  unfold EncodingFits.Statement; decide

theorem EncodingFits.lea (dr : Reg) (off : BitVec 9) : EncodingFits.Statement (.lea dr off) := by
  unfold EncodingFits.Statement encode tableMask tableMatch
  refine BitVec.eq_of_getLsbD_eq fun k hk => ?_
  interval_cases k <;> simp (disch := decide) only [BitVec.getLsbD_and, bit_append_low, bit_append_high, Nat.reduceSub] <;> simp

theorem EncodingFits.trap (vect : BitVec 8) : EncodingFits.Statement (.trap vect) := by
  unfold EncodingFits.Statement encode tableMask tableMatch
  refine BitVec.eq_of_getLsbD_eq fun k hk => ?_
  interval_cases k <;> simp (disch := decide) only [BitVec.getLsbD_and, bit_append_low, bit_append_high, Nat.reduceSub] <;> simp

theorem EncodingFits.getc : EncodingFits.Statement .getc := by
  unfold EncodingFits.Statement; decide

theorem EncodingFits.out : EncodingFits.Statement .out := by
  unfold EncodingFits.Statement; decide

theorem EncodingFits.puts : EncodingFits.Statement .puts := by
  unfold EncodingFits.Statement; decide

theorem EncodingFits.inChar : EncodingFits.Statement .inChar := by
  unfold EncodingFits.Statement; decide

theorem EncodingFits.putsp : EncodingFits.Statement .putsp := by
  unfold EncodingFits.Statement; decide

theorem EncodingFits.halt : EncodingFits.Statement .halt := by
  unfold EncodingFits.Statement; decide

end Sys2Proof.Laws
end

