-- ==== Sys2Proof/Tests/Slice0.lean ====
section
/-! SUPPORT. Tests, each one step on a small state, with the expected result from 95_test_vectors.md (the vector's id in the
comment) or from the rule named; the smoke test of WellFormed; and a witness for the hypotheses of each statement. -/

namespace Sys2Proof.Tests

open Sys2Proof.Machine

/-! ## Helpers -/

/-- Reset with the word `w` at 0x3000 and other words in memory. -/
def prog (w : Word) (words : List (Word × Word)) : State :=
  { State.reset with
    mem := Memory.store (words.foldl (fun (m : Memory) c => Memory.store m c.1 c.2) ([] : Memory)) 0x3000 w }

/-- The step answers a next state of which `p` holds. -/
def stepsTo (s : State) (p : State → Bool) : Bool :=
  match step s with
  | .next t => p t
  | .fault _ => false
  | .refused _ => false

/-! ## Well-formedness: an ill-formed term for the one check, at both ends of its range -/

theorem test_wf_refuses_first_service_vector : (Instr.trap 0x20).wf = false := by decide
theorem test_wf_refuses_last_service_vector : (Instr.trap 0x25).wf = false := by decide
theorem test_wf_allows_vectors_beside : (Instr.trap 0x1F).wf = true ∧ (Instr.trap 0x26).wf = true := by decide

/-! ## Decoding: every constructor's word, written out from the formats of 30_encoding.md R83 to R92 -/

-- R83, R84: 0001 ddd sss 0 xx ttt and 0001 ddd sss 1 iiiii
theorem test_decode_addReg : decode 0b0001_011_101_0_00_110 = .addReg .r3 .r5 .r6 := by decide
theorem test_decode_addImm : decode 0b0001_011_101_1_10001 = .addImm .r3 .r5 0b10001 := by decide
theorem test_decode_andReg : decode 0b0101_011_101_0_11_110 = .andReg .r3 .r5 .r6 := by decide
theorem test_decode_andImm : decode 0b0101_011_101_1_01111 = .andImm .r3 .r5 0b01111 := by decide
-- R85: 1001 ddd sss xxxxxx
theorem test_decode_not : decode 0b1001_001_010_111111 = .not .r1 .r2 := by decide
-- R86: 0000 n z p ooooooooo
theorem test_decode_br : decode 0b0000_1_0_1_100000001 = .br true false true 0b100000001 := by decide
theorem test_decode_br_bits : decode 0b0000_0_1_0_000000011 = .br false true false 3 := by decide
-- R87: 1100 xxx sss xxxxxx and 0100 0 xx sss xxxxxx
theorem test_decode_jmp : decode 0b1100_111_011_111111 = .jmp .r3 := by decide
theorem test_decode_jsrr : decode 0b0100_0_11_011_111111 = .jsrr .r3 := by decide
-- R88: 0100 1 ooooooooooo
theorem test_decode_jsr : decode 0b0100_1_10000000001 = .jsr 0b10000000001 := by decide
-- R89: opcode ddd ooooooooo
theorem test_decode_ld : decode 0b0010_110_100000001 = .ld .r6 0b100000001 := by decide
theorem test_decode_ldi : decode 0b1010_110_100000001 = .ldi .r6 0b100000001 := by decide
theorem test_decode_lea : decode 0b1110_110_100000001 = .lea .r6 0b100000001 := by decide
theorem test_decode_st : decode 0b0011_110_100000001 = .st .r6 0b100000001 := by decide
theorem test_decode_sti : decode 0b1011_110_100000001 = .sti .r6 0b100000001 := by decide
-- R90: opcode ddd sss oooooo
theorem test_decode_ldr : decode 0b0110_001_100_100001 = .ldr .r1 .r4 0b100001 := by decide
theorem test_decode_str : decode 0b0111_001_100_100001 = .str .r1 .r4 0b100001 := by decide
-- R91: 1111 xxxx vvvvvvvv
theorem test_decode_trap : decode 0b1111_1010_00100110 = .trap 0x26 := by decide
theorem test_decode_getc : decode 0b1111_0000_00100000 = .getc := by decide
theorem test_decode_out : decode 0b1111_1111_00100001 = .out := by decide
theorem test_decode_puts : decode 0b1111_0000_00100010 = .puts := by decide
theorem test_decode_in : decode 0b1111_0000_00100011 = .inChar := by decide
theorem test_decode_putsp : decode 0b1111_0000_00100100 = .putsp := by decide
theorem test_decode_halt : decode 0b1111_0000_00100101 = .halt := by decide
-- R92: 1000 xxxxxxxxxxxx and 1101 xxxxxxxxxxxx
theorem test_decode_rti : decode 0b1000_111111111111 = .rti := by decide
theorem test_decode_res : decode 0b1101_000100100011 = .res := by decide
theorem test_decode_table_word : decodeTableWord 16 0xF025 = some .halt := by decide

/-- The encoder gives the words of the spec's examples (41_alu.md R130, R134; 42_control.md R153; 44_trap.md R208). -/
theorem test_encode_examples : encode (.addReg .r0 .r1 .r2) = 0x1042 ∧ encode (.andImm .r2 .r2 0) = 0x54A0 ∧
    encode (.jsr 0x010) = 0x4810 ∧ encode .halt = 0xF025 := by decide

/-! ## Operands and flags -/

-- W1, W2 and the table of 95_test_vectors.md 2.1
theorem test_sext : sext 0x1F#5 = 0xFFFF ∧ sext 0x0F#5 = 0x000F ∧ sext 0x10#5 = 0xFFF0 ∧ sext 0x20#6 = 0xFFE0 ∧
    sext 0x100#9 = 0xFF00 ∧ sext 0x0FF#9 = 0x00FF ∧ sext 0x400#11 = 0xFC00 ∧ sext 0x3FF#11 = 0x03FF := by decide
-- W4 and the table of 2.1
theorem test_setcc : condOf 0x0000 = .zero ∧ condOf 0x8000 = .negative ∧ condOf 0x0001 = .positive ∧
    condOf 0x7FFF = .positive ∧ condOf 0xFFFF = .negative := by decide

/-! ## ALU -/

-- A2, A3
theorem test_addReg_overflow : stepsTo (((prog 0x1042 []).setReg .r1 0x7FFF).setReg .r2 0x0001)
    (fun t => t.reg .r0 == 0x8000 && t.cond == .negative && t.pc == 0x3001) = true := by decide
theorem test_addReg_wraps : stepsTo (((prog 0x1042 []).setReg .r1 0xFFFF).setReg .r2 0x0001)
    (fun t => t.reg .r0 == 0x0000 && t.cond == .zero) = true := by decide
-- A4
theorem test_addImm_decrements : stepsTo (prog 0x127F []) (fun t => t.reg .r1 == 0xFFFF && t.cond == .negative) = true := by
  decide
-- A8
theorem test_andReg : stepsTo (((prog 0x5042 []).setReg .r1 0x00F0).setReg .r2 0x0FF0)
    (fun t => t.reg .r0 == 0x00F0 && t.cond == .positive) = true := by decide
-- A10
theorem test_andImm_sign_extends : stepsTo ((prog 0x5670 []).setReg .r1 0x1234)
    (fun t => t.reg .r3 == 0x1230 && t.cond == .positive) = true := by decide
-- A12
theorem test_not : stepsTo ((prog 0x92BF []).setReg .r2 0x00FF)
    (fun t => t.reg .r1 == 0xFF00 && t.cond == .negative) = true := by decide

/-! ## Control transfer -/

-- B1, B2
theorem test_br_taken : stepsTo (prog 0x0403 []) (fun t => t.pc == 0x3004 && t.cond == .zero) = true := by decide
theorem test_br_not_taken : stepsTo { prog 0x0403 [] with cond := .positive } (fun t => t.pc == 0x3001) = true := by decide
-- B8
theorem test_jmp : stepsTo ((prog 0xCEFF []).setReg .r3 0x1234) (fun t => t.pc == 0x1234) = true := by decide
-- B9 (W8)
theorem test_jsr : stepsTo { State.reset with pc := 0x2FFF, mem := Memory.store [] 0x2FFF 0x4810 }
    (fun t => t.reg .r7 == 0x3000 && t.pc == 0x3010) = true := by decide
-- B13, B14: JSRR R7, for each value of the parameter, on the state after the fetch at 0x3000
theorem test_jsrr_r7_after_link : (jsrrCall .afterLink .r7 ({ State.reset with pc := 0x3001 }.setReg .r7 0x5000)).pc = 0x3001 := by
  decide
theorem test_jsrr_r7_before_link : (jsrrCall .beforeLink .r7 ({ State.reset with pc := 0x3001 }.setReg .r7 0x5000)).pc = 0x5000 := by
  decide

/-! ## Loads and stores -/

-- L1
theorem test_ld : stepsTo (prog 0x2202 [(0x3003, 0x1234)]) (fun t => t.reg .r1 == 0x1234 && t.cond == .positive) = true := by
  decide
-- L2
theorem test_ldi : stepsTo (prog 0xA401 [(0x3002, 0x4000), (0x4000, 0xFFFE)])
    (fun t => t.reg .r2 == 0xFFFE && t.cond == .negative) = true := by decide
-- L4: DR = BaseR
theorem test_ldr_base_is_destination : stepsTo ((prog 0x6480 [(0x4000, 0x0042)]).setReg .r2 0x4000)
    (fun t => t.reg .r2 == 0x0042 && t.cond == .positive) = true := by decide
-- K2, first step: the poll latches
theorem test_ldr_polls_kbsr : stepsTo { (prog 0x6040 []).setReg .r1 0xFE00 with inq := [0x78] }
    (fun t => t.reg .r0 == 0x8000 && t.mem.load 0xFE02 == 0x0078 && t.inq == []) = true := by decide
-- L6: the PC wraps
theorem test_lea_wraps : stepsTo { State.reset with pc := 0xFFFF, mem := Memory.store [] 0xFFFF 0xE000 }
    (fun t => t.reg .r0 == 0x0000 && t.cond == .zero && t.pc == 0x0000) = true := by decide
-- L8
theorem test_st : stepsTo ((prog 0x33FD []).setReg .r1 0xABCD)
    (fun t => t.mem.load 0x2FFE == 0xABCD && t.cond == .zero) = true := by decide
-- K4: a store to KBSR does not poll
theorem test_sti_kbsr_does_not_poll : stepsTo { (prog 0xB000 [(0x3001, 0xFE00)]).setReg .r0 0x5555 with inq := [0x78] }
    (fun t => t.mem.load 0xFE00 == 0x5555 && t.inq == [0x78]) = true := by decide
-- L11: SR = BaseR, the address wraps
theorem test_str_wraps : stepsTo ((prog 0x7260 []).setReg .r1 0x0010) (fun t => t.mem.load 0xFFF0 == 0x0010) = true := by
  decide
-- K6: a fetch from KBSR with a key runs 0x8000, RTI
theorem test_fetch_from_kbsr : stepsTo { State.reset with pc := 0xFE00, inq := [0x5A], mem := Memory.store [] 0xFE00 0x1234 }
    (fun t => t.status == .aborted (.reservedOpcode 0x8) 0xFE00 && t.pc == 0xFE01 && t.mem.load 0xFE02 == 0x005A) = true := by
  decide

/-! ## Traps -/

-- T1, T3
theorem test_getc : stepsTo { prog 0xF020 [] with inq := [0x71] }
    (fun t => t.reg .r0 == 0x0071 && t.cond == .positive && t.reg .r7 == 0x3001 && t.inq == [] && t.out == []) = true := by decide
theorem test_getc_blocked : stepsTo (prog 0xF020 []) (fun t => t == prog 0xF020 []) = true := by decide
-- T4
theorem test_out : stepsTo ((prog 0xF021 []).setReg .r0 0x1241)
    (fun t => t.out == [0x41] && t.reg .r0 == 0x1241 && t.reg .r7 == 0x3001) = true := by decide
-- T6, T14
theorem test_puts : stepsTo ((prog 0xF022 [(0x4000, 0x0100), (0x4001, 0x4142)]).setReg .r0 0x4000)
    (fun t => t.out == [0x00, 0x42] && t.status == .running) = true := by decide
theorem test_puts_past_the_top : stepsTo ((prog 0xF022 [(0xFFFE, 0x0041), (0xFFFF, 0x0042)]).setReg .r0 0xFFFE)
    (fun t => t.out == [0x41, 0x42] && t.status == .aborted (.trapStringWrap 0xFFFF) 0x3000) = true := by decide
-- W7, T8
theorem test_putsp : stepsTo ((prog 0xF024 [(0x4000, 0x4241), (0x4001, 0x0043)]).setReg .r0 0x4000)
    (fun t => t.out == [0x41, 0x42, 0x43]) = true := by decide
theorem test_putsp_low_byte_zero : stepsTo ((prog 0xF024 [(0x4000, 0x4100)]).setReg .r0 0x4000)
    (fun t => t.out == [0x00, 0x41]) = true := by decide
-- T9, and the wait of R206
theorem test_in : (serviceIn { State.reset with pc := 0x3001, inq := [0x37] }).out = [] ++ Config.inPrompt ++ [0x37] := rfl
theorem test_in_blocked : (serviceIn { State.reset with pc := 0x3001 }).inWait = true := rfl
-- T10
theorem test_halt : (serviceHalt { State.reset with pc := 0x3002 }).status = .halted ∧
    (serviceHalt { State.reset with pc := 0x3002 }).reg .r7 = 0x3002 := ⟨rfl, rfl⟩
-- T11, T12
theorem test_trap_noop : (undefinedTrap .noop 0x26 { State.reset with pc := 0x3001 }).status = .running := rfl
theorem test_trap_fault : (undefinedTrap .fault 0x26 { State.reset with pc := 0x3001 }).status =
    .aborted (.unknownTrap 0x26) 0x3000 := by decide
-- T13
theorem test_puts_at_kbsr : stepsTo ((prog 0xF022 [(0xFDFF, 0x0041)]).setReg .r0 0xFDFF)
    (fun t => t.out == [0x41] && t.status == .aborted (.trapStringAtKBSR 0xFE00) 0x3000) = true := by decide

/-! ## Reserved opcodes, ended runs, arrivals, boot -/

-- X1, X2
theorem test_rti : stepsTo (prog 0x8000 [])
    (fun t => t.status == .aborted (.reservedOpcode 0x8) 0x3000 && t.pc == 0x3001) = true := by decide
theorem test_res : stepsTo { State.reset with pc := 0x4000, mem := Memory.store [] 0x4000 0xD123 }
    (fun t => t.status == .aborted (.reservedOpcode 0xD) 0x4000 && t.pc == 0x4001) = true := by decide
-- R32: no further step
theorem test_halted_takes_no_step : step { State.reset with status := .halted } = .fault .runHalted := rfl
-- 00_scope.md R10: a byte that arrives before the step is seen by its GETC
theorem test_host_appends_before_the_step : stepsTo { prog 0xF020 [] with script := [[0x71]] }
    (fun t => t.reg .r0 == 0x0071 && t.script == []) = true := by decide
-- W9: the image 30 00 10 25 F0 25
theorem test_boot_image : (match loadImage [] (some [0x30, 0x00, 0x10, 0x25, 0xF0, 0x25]) with
    | .ok m => m.load 0x3000 == 0x1025 && m.load 0x3001 == 0xF025
    | .error _ => false) = true := by decide
-- R286: the tail past 0xFFFF is dropped, not wrapped
theorem test_boot_truncates : (match loadImage [] (some [0xFF, 0xFF, 0x12, 0x34, 0x56, 0x78]) with
    | .ok m => m.load 0xFFFF == 0x1234 && m.load 0x0000 == 0x0000
    | .error _ => false) = true := by decide

/-! ## Witnesses: for each statement with hypotheses, values that meet them together -/

/-- DecodeReadsTheFieldsOfEveryWord: a word for each opcode, both modes, and the vectors at the ends of the ranges. -/
theorem witness_DecodeReadsTheFieldsOfEveryWord :
    (∀ k : Fin 16, (BitVec.ofNat 16 (k.val * 4096)).toNat / 2 ^ 12 % 2 ^ 4 = k.val) ∧
    (0x1020 / 2 ^ 5 % 2 ^ 1 = 1 ∧ 0x1042 / 2 ^ 5 % 2 ^ 1 = 0 ∧ 0x5020 / 2 ^ 5 % 2 ^ 1 = 1 ∧ 0x5042 / 2 ^ 5 % 2 ^ 1 = 0) ∧
    (0x4810 / 2 ^ 11 % 2 ^ 1 = 1 ∧ 0x40C0 / 2 ^ 11 % 2 ^ 1 = 0) ∧
    (0xF020 / 2 ^ 0 % 2 ^ 8 = 0x20 ∧ 0xF021 / 2 ^ 0 % 2 ^ 8 = 0x21 ∧ 0xF022 / 2 ^ 0 % 2 ^ 8 = 0x22 ∧
      0xF023 / 2 ^ 0 % 2 ^ 8 = 0x23 ∧ 0xF024 / 2 ^ 0 % 2 ^ 8 = 0x24 ∧ 0xF025 / 2 ^ 0 % 2 ^ 8 = 0x25) ∧
    (0xF01F / 2 ^ 0 % 2 ^ 8 < 0x20 ∧ 0x25 < 0xF026 / 2 ^ 0 % 2 ^ 8) := by decide

theorem witness_IgnoredBitsAreIgnored :
    (0x105A : Word) &&& usedBits (decode 0x1042) = 0x1042 &&& usedBits (decode 0x1042) := by decide

theorem witness_DecodeOfEncodeIsTheInstruction :
    (Instr.trap 0x1F).wf = true ∧ (Instr.trap 0x26).wf = true ∧ Instr.halt.wf = true ∧ (Instr.jsr 0x7FF).wf = true := by decide

/-- MemReadPollsOnlyAtKbsr and MemWriteStoresAnywhere: the address that polls, with and without a key, its neighbours, KBDR. -/
theorem witness_MemWriteStoresAnywhere :
    (0xFDFF : Word) ≠ 0xFE00#16 ∧ (0xFE01 : Word) ≠ 0xFE00#16 ∧ (0xFE02 : Word) ≠ 0xFE00#16 ∧
    (({ State.reset with inq := [0x78] } : State).memWrite 0xFE00 0x5555).memRead 0xFE00 =
      (0x8000, { State.reset with mem := Memory.store (Memory.store [] 0xFE00 0x8000) 0xFE02 0x78 }) ∧
    ((State.reset.memWrite 0xFE00 0x5555).memRead 0xFE00).1 = 0x0000 ∧
    ((State.reset.memWrite 0xFE02 0x5555).memRead 0xFE02).1 = 0x5555 := by decide

theorem witness_PlacedInstructionRunsNext :
    State.reset.pc ≠ 0xFE00#16 ∧ State.reset.fetchPlace = 0x3000 ∧ ({ State.reset with pc := 0xFE00 } : State).fetchPlace = 0x3000 ∧
    ({ State.reset with pc := 0xFE01 } : State).fetchPlace = 0xFE01 := by decide

theorem witness_StoreIsSeenByTheFetch :
    exec (.st .r1 0) (prog 0x3200 []) = .next ((prog 0x3200 []).memWrite 0x3000 0) ∧
    storeAddress (.st .r1 0) (prog 0x3200 []) = some 0x3000 ∧ storeSource (.st .r1 0) = some .r1 ∧
    (0x3000 : Word) ≠ 0xFE00#16 := ⟨rfl, rfl, rfl, by decide⟩

theorem witness_StepRunsTheDecodedInstruction :
    State.reset.status = .running ∧ State.reset.inWait = false ∧ State.reset.pc ≠ 0xFE00#16 := by decide

theorem witness_ZeroWordOnlyAdvancesThePc :
    State.reset.status = .running ∧ State.reset.inWait = false ∧ State.reset.pc ≠ 0xFE00#16 ∧
    State.reset.mem.load State.reset.pc = 0 := by decide

theorem witness_StepExactlyWhileRunning :
    (State.reset.status = .running) ∧ ({ State.reset with status := .halted } : State).status = .halted ∧
    ({ State.reset with status := .aborted (.reservedOpcode 8) 0x3000 } : State).status = .aborted (.reservedOpcode 8) 0x3000 := by
  decide

theorem witness_ImmediateAndRegisterFormsAgree : ((State.reset.setReg .r2 0xFFFF).reg .r2).toInt = (0x1F#5).toInt := by decide

theorem witness_SubtractionBySequence : Reg.r3 ≠ Reg.r1 := by decide

theorem witness_UndefinedTrapResult : (0x1F#8).toNat < 0x20 ∧ 0x25 < (0x26#8).toNat := by decide

theorem witness_GetcResult : ({ State.reset with inq := [0x71] } : State).inq = 0x71 :: [] := rfl

theorem witness_GetcWaitsForTheHost :
    (prog 0xF020 []).status = .running ∧ (prog 0xF020 []).inWait = false ∧ (prog 0xF020 []).pc ≠ 0xFE00#16 ∧
    decode ((prog 0xF020 []).mem.load (prog 0xF020 []).pc) = .getc ∧ (prog 0xF020 []).hostMove.inq = [] := by decide

/-- The state of the PUTS and PUTSP witnesses: R0 at `a`, the words there. -/
def stringState (a : Word) (words : List (Word × Word)) : State := (prog 0 words).setReg .r0 a

/-- PutsResult and PutspResult: a string of two words, and one that ends at 0xFFFF (vectors W6 and T15). -/
theorem witness_PutsResult :
    StringWords (stringState 0x4000 [(0x4000, 0x48), (0x4001, 0x49)]).mem 0x4000 [0x48, 0x49] ∧
    (stringState 0x4000 [(0x4000, 0x48), (0x4001, 0x49)]).mem.load (BitVec.ofNat 16 (0x4000 + 2)) = 0 ∧
    StringWords (stringState 0xFFFE [(0xFFFE, 0x41)]).mem 0xFFFE [0x41] ∧ 0xFFFE + 1 < 65536 ∧ 0xFFFE + 1 ≠ 0xFE00 ∧
    (stringState 0xFFFE [(0xFFFE, 0x41)]).mem.load (BitVec.ofNat 16 (0xFFFE + 1)) = 0 := by
  unfold StringWords; decide

theorem witness_PutspResult :
    StringWords (stringState 0x4000 [(0x4000, 0x4241), (0x4001, 0x43)]).mem 0x4000 [0x4241, 0x43] ∧
    0x4000 + 2 < 65536 ∧ 0x4000 + 2 ≠ 0xFE00 ∧
    (stringState 0x4000 [(0x4000, 0x4241), (0x4001, 0x43)]).mem.load (BitVec.ofNat 16 (0x4000 + 2)) = 0 := by
  unfold StringWords; decide

/-- UnendedStringsAbort: both clauses (vectors T13 and T14), and the empty walk at KBSR. -/
theorem witness_UnendedStringsAbort :
    StringWords (stringState 0xFDFF [(0xFDFF, 0x41)]).mem 0xFDFF [0x41] ∧ 0xFDFF + 1 = 0xFE00 ∧
    StringWords (stringState 0xFE00 []).mem 0xFE00 [] ∧ 0xFE00 + 0 = 0xFE00 ∧
    StringWords (stringState 0xFFFE [(0xFFFE, 0x41), (0xFFFF, 0x42)]).mem 0xFFFE [0x41, 0x42] ∧ 0xFFFE + 2 = 65536 := by
  unfold StringWords; decide

theorem witness_InResult : ({ State.reset with inq := [0x37] } : State).inq = 0x37 :: [] := rfl

theorem witness_InWaitsAfterItsPrompt : State.reset.inq = [] := rfl

theorem witness_BlockedInResumes :
    ({ State.reset with inWait := true } : State).status = .running ∧
    ({ State.reset with inWait := true } : State).hostMove.inq = [] ∧
    ({ State.reset with inWait := true, script := [[0x37]] } : State).hostMove.inq = 0x37 :: [] := by decide

theorem witness_ReservedOpcodesAbort :
    (prog 0x8000 []).status = .running ∧ (prog 0x8000 []).inWait = false ∧ (prog 0x8000 []).hostMove.fetch.1 = 0x8000 ∧
    (0x8000 : Word).toNat / 4096 = 0x8 ∧ (prog 0xD123 []).hostMove.fetch.1 = 0xD123 ∧ (0xD123 : Word).toNat / 4096 = 0xD := by
  decide

/-- CondIsSetByTheListedInstructionsOnly: a flag writer, GETC with and without a byte, and an instruction that sets none. -/
theorem witness_CondIsSetByTheListedInstructionsOnly :
    Instr.wf .getc = true ∧ exec .getc { State.reset with inq := [0x71] } =
      .next (serviceGetc { State.reset with inq := [0x71] }) ∧ flagTarget .getc = some .r0 ∧ takesInput .getc = true ∧
    exec .getc State.reset = .next (serviceGetc State.reset) ∧ State.reset.inq = [] ∧
    flagTarget (.lea .r1 0) = some .r1 ∧ takesInput (.lea .r1 0) = false ∧ flagTarget (.st .r1 0) = none :=
  ⟨rfl, rfl, rfl, rfl, rfl, rfl, rfl, rfl, rfl⟩

theorem witness_RegistersAreWrittenByTheListedInstructionsOnly :
    Instr.wf (.jsr 0) = true ∧ exec (.jsr 0) State.reset = .next (State.reset.link.setPc 0x3000) ∧
    Reg.r6 ∉ writableRegs (.jsr 0) := ⟨rfl, rfl, by decide⟩

/-- MemoryChangesOnlyByStoresAndPolls: a store that changes a cell, and a load that polls and changes KBSR's high cell. -/
theorem witness_MemoryChangesOnlyByStoresAndPolls :
    exec (.st .r0 0) (State.reset.setReg .r0 0x1200) = .next ((State.reset.setReg .r0 0x1200).memWrite 0x3000 0x1200) ∧
    ((State.reset.setReg .r0 0x1200).memWrite 0x3000 0x1200).mem.readByte 0x6000 ≠
      (State.reset.setReg .r0 0x1200).mem.readByte 0x6000 ∧
    exec (.ldr .r0 .r1 0) { State.reset.setReg .r1 0xFE00 with inq := [0x78] } =
      .next (loadTo .r0 0xFE00 { State.reset.setReg .r1 0xFE00 with inq := [0x78] }) ∧
    (loadTo .r0 0xFE00 { State.reset.setReg .r1 0xFE00 with inq := [0x78] }).mem.readByte 0x1FC00 ≠
      ({ State.reset.setReg .r1 0xFE00 with inq := [0x78] } : State).mem.readByte 0x1FC00 :=
  ⟨rfl, by decide, rfl, by decide⟩

theorem witness_PcIsWrittenByControlTransfersOnly :
    Instr.wf .getc = true ∧ exec .getc { State.reset with inq := [0x71] } =
      .next (serviceGetc { State.reset with inq := [0x71] }) ∧ transfersControl .getc = false ∧
    ({ State.reset with inq := [0x71] } : State).inq ≠ [] := ⟨rfl, rfl, rfl, by decide⟩

theorem witness_HaltedIsEnteredByHaltOnly :
    step (prog 0xF025 []) = .next (serviceHalt ((prog 0xF025 []).setPc 0x3001)) ∧
    (serviceHalt ((prog 0xF025 []).setPc 0x3001)).status = .halted := ⟨rfl, rfl⟩

theorem witness_AbortedIsEnteredByTheFourFaultsOnly :
    step (prog 0x8000 []) = .next (((prog 0x8000 []).setPc 0x3001).raise (.reservedOpcode 0x8)) ∧
    (((prog 0x8000 []).setPc 0x3001).raise (.reservedOpcode 0x8)).status = .aborted (.reservedOpcode 0x8) 0x3000 :=
  ⟨rfl, by decide⟩

theorem witness_ConsoleBytesKeepTheirOrder : step State.reset = .next (State.reset.setPc 0x3001) := rfl

theorem witness_OutputLogIsNeverReadBack : step State.reset = .next (State.reset.setPc 0x3001) := rfl

theorem witness_CondIsReadByBrOnly :
    Instr.wf (.lea .r1 0) = true ∧ (∀ n z p off, Instr.lea .r1 0 ≠ .br n z p off) ∧
    exec (.lea .r1 0) State.reset = .next (State.reset.writeFlagged .r1 0x3000) :=
  ⟨rfl, fun _ _ _ _ => by simp, rfl⟩

theorem witness_StepKeepsTheInvariant :
    State.reset.Inv ∧ step State.reset = .next (State.reset.setPc 0x3001) :=
  ⟨⟨rfl, fun h => absurd h (by decide)⟩, rfl⟩

/-- The invariant's second part is met by a state that is blocked in IN: what IN leaves with an empty queue. -/
theorem witness_BlockedInIn : (serviceIn ((prog 0xF023 []).setPc 0x3001)).BlockedInIn :=
  ⟨rfl, by decide, by decide, List.suffix_append _ _⟩

theorem witness_InvariantHoldsAtTheStart : Memory.wf (Memory.store [] 0x3000 0x1025) = true := by decide

theorem witness_ImageLoadsFromItsOrigin :
    ([] : List Byte).length % 2 = 0 ∧ ([0x10, 0x25] : List Byte).length % 2 = 0 ∧
    0x30 * 256 + 0 ≤ (0x3000 : Word).toNat ∧ (0x3000 : Word).toNat - (0x30 * 256 + 0) < ([0x10, 0x25] : List Byte).length / 2 := by
  decide

theorem witness_BootRunsOnlyIfEveryImageLoads :
    ([0x10] : List Byte).length % 2 = 1 ∧ loadImages State.reset.mem [some [0x30, 0x00]] = .ok [] ∧
    loadImage [] (some [0x30]) = .error .truncated ∧ [some [0x30#8, 0x00#8]] ≠ [] ∧
    loadImage [] (some [0x30, 0x00, 0x10, 0x25]) = .ok (Memory.store [] 0x3000 0x1025) := ⟨rfl, rfl, rfl, by decide, rfl⟩

/-- LaterImagesOverwriteEarlierOnes: two images that overlap at 0x3001; the later one's word is the one there. -/
theorem witness_LaterImagesOverwriteEarlierOnes :
    let images : List Image := [⟨0x30, 0x00, [0x11, 0x11, 0x22, 0x22]⟩, ⟨0x30, 0x01, [0x33, 0x33]⟩]
    images ≠ [] ∧ (∀ i ∈ images, i.body.length % 2 = 0) ∧
    (match bootImages (images.map Image.file) [] [] with
      | .ok s => s.mem.load 0x3000 == 0x1111 && s.mem.load 0x3001 == 0x3333 && s.pc == 0x3000
      | .error _ => false) = true := by decide

/-- SextIsTheBitTrick and EffectiveAddressesWrap: the widths they are stated for. -/
theorem witness_widths : (∀ n ∈ [5, 6, 9, 11], n = 5 ∨ n = 6 ∨ n = 9 ∨ n = 11) ∧ ∀ n ∈ [9, 11], n = 9 ∨ n = 11 := by decide

end Sys2Proof.Tests
end

section
/-! PROOFS of the family 00_scope.md: the operand extensions of R13. -/

namespace Sys2Proof.Proofs

open Sys2Proof.Machine

/-! ## Operand extensions as plain arithmetic -/

/-- R13's trick in plain arithmetic. The model truncates the shifted mask to 16 bits before the OR and the spec after it;
both give the same word because OR works bit by bit (`Nat.or_mod_two_pow`). -/
theorem toNat_sext {n : Nat} (hn : n ≤ 16) (v : BitVec n) :
    (sext v).toNat = if v.msb then (v.toNat ||| 0xFFFF <<< n) % 65536 else v.toNat := by
  unfold sext
  split
  · calc (v.setWidth 16 ||| (0xFFFF#16 <<< n)).toNat
        = v.toNat ||| 0xFFFF <<< n % 2 ^ 16 := by
          rw [BitVec.toNat_or, BitVec.toNat_setWidth_of_le hn, BitVec.toNat_shiftLeft]; rfl
      _ = v.toNat % 2 ^ 16 ||| 0xFFFF <<< n % 2 ^ 16 := by
          rw [Nat.mod_eq_of_lt (v.isLt.trans_le (Nat.pow_le_pow_right two_pos hn))]
      _ = (v.toNat ||| 0xFFFF <<< n) % 65536 := Nat.or_mod_two_pow.symm
  · exact BitVec.toNat_setWidth_of_le hn

/-- Zero extension keeps the byte's number. -/
theorem toNat_zext (b : Byte) : (zext b).toNat = b.toNat := BitVec.toNat_setWidth_of_le (by decide)

/-- Settles O7: the sign bit that the model tests is bit n - 1, and `toNat_sext` holds at every width up to 16. -/
theorem sextIsTheBitTrick : Obligations.SextIsTheBitTrick := by
  refine ⟨fun n hwidth v => ?_, toNat_zext⟩
  have hn : n ≤ 16 := by omega
  rw [toNat_sext hn, BitVec.msb_eq_getLsbD_last]

end Sys2Proof.Proofs
end

section
/-! PROOFS of the family 10_state.md: setcc (R25), and which instructions set COND (R26). -/

namespace Sys2Proof.Proofs

open Sys2Proof.Machine Sys2Proof.Laws

/-- Settles O9: the flag is the model's `condOf` (`flagOf_condOf`), and COND is the one field setcc writes. -/
theorem setccGivesTheFlagOfTheValue : Obligations.SetccGivesTheFlagOfTheValue :=
  fun s v => ⟨setcc_cond s v ▸ flagOf_condOf v, rfl⟩

/-! ## Operations that keep COND -/

/-- JSRR keeps COND, whichever way JSRR_BASE_READ is chosen. -/
@[simp] theorem jsrrCall_cond (order : JsrrBaseRead) (base : Reg) (s : State) :
    (jsrrCall order base s).cond = s.cond := by
  cases order <;> rfl

/-- A string routine keeps COND, at its return and at its fault. -/
@[simp] theorem printString_cond (emitWord : Word → List Byte) (s : State) :
    (printString emitWord s).cond = s.cond := by
  obtain ⟨-, h⟩ | ⟨e, -, h⟩ := printString_cases emitWord s <;> rw [h] <;> rfl

/-- An undefined vector keeps COND, whichever way UNKNOWN_TRAP is chosen. -/
@[simp] theorem undefinedTrap_cond (policy : UnknownTrap) (vect : BitVec 8) (s : State) :
    (undefinedTrap policy vect s).cond = s.cond := by
  cases policy <;> rfl

/-- The vector of a well-formed TRAP term is an undefined one (44_trap.md R202, R209). -/
theorem trapDispatch_of_wf {vect : BitVec 8} (hwf : (Instr.trap vect).wf = true) (s : State) :
    trapDispatch vect s = undefinedTrap Config.unknownTrap vect s := by
  have hvect : ¬(0x20 ≤ vect.toNat ∧ vect.toNat ≤ 0x25) := by
    rw [← isServiceVector_eq]; simpa [Instr.wf] using hwf
  exact trapDispatch_undefined (by omega) s

/-! ## IN from its start (44_trap.md R206) -/

/-- IN with no byte. -/
theorem serviceIn_empty {s : State} (h : s.inq = []) :
    serviceIn s = (s.link.emit Config.inPrompt).setInWait true :=
  inRead_empty h

/-- IN with a byte. -/
theorem serviceIn_byte {s : State} {b : Byte} {rest : List Byte} (h : s.inq = b :: rest) :
    serviceIn s = ((((s.link.emit Config.inPrompt).setInWait false).emit [b]).takeByte b rest).trapReturn :=
  inRead_byte h

/-! ## The instructions of R26, and the others -/

/-- An instruction of R26, with its byte if it takes one, ends in a flagged write of its register. -/
theorem exec_writesFlagged {i : Instr} {s t : State} {r : Reg} (hexec : exec i s = .next t)
    (hr : flagTarget i = some r) (hbyte : takesInput i = true → s.inq ≠ []) :
    ∃ (u : State) (v : Word), t = u.writeFlagged r v := by
  cases i with
  | addReg | addImm | andReg | andImm | not | ld | ldi | ldr | lea =>
    cases hr; cases hexec; exact ⟨_, _, rfl⟩
  | getc =>
    cases hr; cases hexec
    obtain ⟨b, rest, hq⟩ := List.exists_cons_of_ne_nil (hbyte rfl)
    rw [serviceGetc_byte hq]; exact ⟨_, _, rfl⟩
  | inChar =>
    cases hr; cases hexec
    obtain ⟨b, rest, hq⟩ := List.exists_cons_of_ne_nil (hbyte rfl)
    rw [serviceIn_byte hq]; exact ⟨_, _, rfl⟩
  | br | st | jsr | jsrr | str | rti | sti | jmp | res | trap | out | puts | putsp | halt => cases hr

/-- An instruction outside R26 keeps COND. -/
theorem exec_keeps_cond {i : Instr} {s t : State} (hwf : i.wf = true) (hexec : exec i s = .next t)
    (hr : flagTarget i = none) : t.cond = s.cond := by
  cases i with
  | addReg | addImm | andReg | andImm | not | ld | ldi | ldr | lea | getc | inChar => cases hr
  | st | jsr | str | rti | jmp | res | out | halt => cases hexec; rfl
  | br n z p off =>
    cases hexec
    cases branchTaken n z p s.cond <;> rfl
  | sti sr off => cases hexec; exact memRead_cond s (pcRelative s off)
  | jsrr base => cases hexec; exact jsrrCall_cond Config.jsrrBaseRead base s
  | puts => cases hexec; exact printString_cond putsBytes s
  | putsp => cases hexec; exact printString_cond putspBytes s
  | trap vect => cases hexec; rw [trapDispatch_of_wf hwf, undefinedTrap_cond]

/-- GETC and IN keep COND as long as no byte is waiting (40_dispatch.md R118). -/
theorem exec_keeps_cond_of_no_byte {i : Instr} {s t : State} (hexec : exec i s = .next t)
    (hin : takesInput i = true) (hq : s.inq = []) : t.cond = s.cond := by
  cases i with
  | getc => cases hexec; rw [serviceGetc_empty hq, notTaken_cond]
  | inChar => cases hexec; rw [serviceIn_empty hq]; rfl
  | _ => cases hin

/-- Settles O45: where R26 lists the instruction, it ends in a flagged write (`exec_writesFlagged`); any other one, or one
that waits for its byte, keeps COND. -/
theorem condIsSetByTheListedInstructionsOnly : Obligations.CondIsSetByTheListedInstructionsOnly := by
  intro i s t hwf hexec
  refine ⟨fun r hr hbyte => ?_, ?_⟩
  · obtain ⟨u, v, rfl⟩ := exec_writesFlagged hexec hr hbyte
    simpa using flagOf_condOf v
  · rintro (hnone | ⟨hin, hq⟩)
    · exact exec_keeps_cond hwf hexec hnone
    · exact exec_keeps_cond_of_no_byte hexec hin hq

end Sys2Proof.Proofs
end

section
/-! PROOFS of the family 20_memory.md: addresses wrap (R62), MemRead (R54, R55) and MemWrite (R57). -/

namespace Sys2Proof.Proofs

open Sys2Proof.Machine Sys2Proof.Laws

/-! ## Addresses (R62) -/

/-- An address and a signed offset add up as integers, modulo 65536. -/
theorem toNat_plusOffset {n : Nat} (a : Word) (off : BitVec n) :
    ((plusOffset a off).toNat : Int) = ((a.toNat : Int) + off.toInt) % 65536 := by
  have hsum : plusOffset a off = BitVec.ofInt 16 (a.toNat + off.toInt) := by
    rw [plusOffset, BitVec.ofInt_add, BitVec.ofInt_natCast, BitVec.ofNat_toNat, BitVec.setWidth_eq]
  rw [hsum, BitVec.toNat_ofInt]
  exact Int.toNat_of_nonneg (Int.emod_nonneg _ (by decide))

/-- Settles O8: each offset is added as `add_sext` says, and the fetch adds 1 modulo 2^16. -/
theorem effectiveAddressesWrap : Obligations.EffectiveAddressesWrap := by
  refine ⟨fun n s off hwidth => ?_, fun s base off => ?_, fun s => ?_⟩
  · rw [pcRelative, add_sext (by omega), toNat_plusOffset]
  · rw [baseOffset, add_sext (by decide), toNat_plusOffset]
  · rw [fetch_pc, BitVec.toNat_add]; rfl

/-! ## MemRead (R54, R55) -/

/-- A store changes no cell outside its word. -/
theorem store_keepsCells (m : Memory) (a v : Word) : KeepsCellsBut [a] m (m.store a v) :=
  fun _ hk => readByte_store_other m a v (hk a (List.mem_singleton_self a))

/-- Two stores change no cell outside their words. -/
theorem store_store_keepsCells (m : Memory) (a v a' v' : Word) :
    KeepsCellsBut [a, a'] m ((m.store a v).store a' v') := fun k hk =>
  calc ((m.store a v).store a' v').readByte k
      = (m.store a v).readByte k := readByte_store_other _ a' v' (hk a' (by simp))
    _ = m.readByte k := readByte_store_other m a v (hk a (by simp))

/-- The word, memory and queue of a MemRead, in each of its three cases. -/
theorem memRead_readsWord (s : State) (a : Word) :
    ReadsWord s.mem s.inq a (s.memRead a).1 (s.memRead a).2.mem (s.memRead a).2.inq := by
  obtain ⟨ha, hread⟩ | ⟨ha, hq, hread⟩ | ⟨b, q, ha, hq, hread⟩ := memRead_cases s a <;> rw [hread]
  · exact ⟨fun _ => ⟨rfl, rfl, rfl⟩, fun h => absurd h ha, fun _ _ h => absurd h ha⟩
  · refine ⟨fun h => absurd ha h, fun _ _ => ?_, fun _ _ _ h => (nomatch hq.symm.trans h)⟩
    exact ⟨rfl, load_store_same s.mem kbsr 0x0000, store_keepsCells s.mem kbsr 0x0000, hq⟩
  · refine ⟨fun h => absurd ha h, fun _ h => (nomatch hq.symm.trans h), fun b' q' _ h => ?_⟩
    obtain ⟨rfl, rfl⟩ := List.cons.inj (hq.symm.trans h)
    have hkbsr : ((s.mem.store kbsr 0x8000).store kbdr (zext b)).load kbsr = 0x8000 := by
      rw [load_store_other _ _ _ (by decide), load_store_same]
    have hkbdr : (((s.mem.store kbsr 0x8000).store kbdr (zext b)).load kbdr).toNat = b.toNat := by
      rw [load_store_same, toNat_zext]
    exact ⟨rfl, hkbsr, hkbdr, store_store_keepsCells s.mem kbsr 0x8000 kbdr (zext b), rfl⟩

/-- A MemRead writes no field but memory and the queue. -/
theorem memRead_frame (s : State) (a : Word) : { (s.memRead a).2 with mem := s.mem, inq := s.inq } = s := by
  obtain ⟨-, hread⟩ | ⟨-, -, hread⟩ | ⟨_, _, -, -, hread⟩ := memRead_cases s a <;> rw [hread] <;> rfl

/-- Settles O10: what a MemRead reads (`memRead_readsWord`) and what it leaves alone (`memRead_frame`). -/
theorem memReadPollsOnlyAtKbsr : Obligations.MemReadPollsOnlyAtKbsr :=
  fun s a => ⟨memRead_readsWord s a, memRead_frame s a⟩

/-! ## MemWrite (R57) -/

/-- The value of a KBSR read depends on the queue alone, not on what is stored there. -/
theorem memRead_kbsr_value (s : State) : (s.memRead kbsr).1 = if s.inq = [] then 0x0000#16 else 0x8000#16 := by
  cases hq : s.inq with
  | nil => rw [memRead_kbsr_empty hq]; rfl
  | cons b q => rw [memRead_kbsr_key hq]; rfl

/-- A KBDR read after another read: the byte that read latched, if it was of KBSR with a key waiting; else the word stored. -/
theorem memRead_kbdr_after_memRead (s : State) (a : Word) :
    ((s.memRead a).2.memRead kbdr).1.toNat =
      if a = kbsr then (s.inq.head?.map BitVec.toNat).getD (s.mem.load kbdr).toNat else (s.mem.load kbdr).toNat := by
  rw [memRead_plain _ (show kbdr ≠ kbsr by decide)]
  obtain ⟨ha, hread⟩ | ⟨ha, hq, hread⟩ | ⟨b, q, ha, hq, hread⟩ := memRead_cases s a <;> rw [hread]
  · rw [if_neg ha]
  · rw [if_pos ha, hq, setWord_mem, load_store_other _ _ _ (by decide)]; rfl
  · rw [if_pos ha, hq, setWord_mem, load_store_same]; exact toNat_zext b

/-- Settles O11: the store and its frame, then the reads after it: of KBSR, of any other address, and of KBDR across a
read that may latch. -/
theorem memWriteStoresAnywhere : Obligations.MemWriteStoresAnywhere := by
  intro s a v
  have hload : (s.memWrite a v).mem.load a = v := load_store_same s.mem a v
  refine ⟨hload, store_keepsCells s.mem a v, rfl, ?kbsr, fun ha => ?plain, ?kbdr⟩
  case kbsr => rintro rfl; exact memRead_kbsr_value _
  case plain => rw [memRead_plain _ ha, hload]
  case kbdr =>
    rintro rfl b
    have h := memRead_kbdr_after_memRead (s.memWrite kbdr v) b
    rwa [memWrite_mem, load_store_same, memWrite_inq] at h

end Sys2Proof.Proofs
end

section
/-! PROOFS of the family 40_dispatch.md: the fetch (R111). -/

namespace Sys2Proof.Proofs

open Sys2Proof.Machine

/-! ## The fetch (R111) -/

/-- The address of the instruction is still known after the fetch, also where the PC wrapped. -/
@[simp] theorem fetch_instrAddr (s : State) : s.fetch.2.instrAddr = s.pc :=
  BitVec.add_sub_cancel s.pc 1

/-- The fetch writes no field but the PC and those its MemRead writes. -/
theorem fetch_frame (s : State) : { s.fetch.2 with mem := s.mem, inq := s.inq, pc := s.pc } = s :=
  congrArg (State.setPc · s.pc) (memRead_frame s s.pc)

/-- A PC-relative address after the fetch counts from the address after the instruction: the increment's wrap is absorbed
by the wrap of the sum. -/
theorem toNat_pcRelative_fetch {n : Nat} (hwidth : n = 9 ∨ n = 11) (s : State) (off : BitVec n) :
    ((pcRelative s.fetch.2 off).toNat : Int) = ((s.pc.toNat : Int) + 1 + off.toInt) % 65536 := by
  obtain ⟨hrelative, -, hincrement⟩ := effectiveAddressesWrap
  rw [hrelative n s.fetch.2 off hwidth, hincrement s]
  exact Int.emod_add_emod (s.pc.toNat + 1) 65536 off.toInt

/-- Settles O13: the read is MemRead's (`memRead_readsWord`), the increment is that of O8, and the rest is `fetch_instrAddr`,
`fetch_frame` and `toNat_pcRelative_fetch`. -/
theorem fetchReadsThenIncrements : Obligations.FetchReadsThenIncrements := by
  obtain ⟨-, -, hincrement⟩ := effectiveAddressesWrap
  exact fun s => ⟨memRead_readsWord s s.pc, hincrement s, fetch_instrAddr s, fetch_frame s,
    fun _ off hwidth => toNat_pcRelative_fetch hwidth s off⟩

end Sys2Proof.Proofs
end

section
/-! PROOFS of the family 44_trap.md: the example words with vector T5 (R202), and OUT (R204). -/

namespace Sys2Proof.Proofs

open Sys2Proof.Machine Sys2Proof.Laws

/-- Settles O1: the statement is about twelve literal words, so running the decoder on each of them decides it. -/
theorem decodesTheExampleWords : Obligations.DecodesTheExampleWords := by
  unfold Obligations.DecodesTheExampleWords
  decide

/-! ## OUT (R204) -/

/-- The low byte of a word in plain arithmetic. -/
theorem lowByte_eq_ofNat_mod (w : Word) : lowByte w = BitVec.ofNat 8 (w.toNat % 256) := by
  apply BitVec.eq_of_toNat_eq
  calc (lowByte w).toNat
      = w.toNat % 256 := BitVec.extractLsb'_toNat 0 8 w
    _ = (BitVec.ofNat 8 (w.toNat % 256)).toNat := (Nat.mod_mod w.toNat 256).symm

/-- Settles O36: OUT is a trap that links, writes one byte and returns (`link_emit_writes`), and that byte is R0's low one
(`lowByte_eq_ofNat_mod`). -/
theorem outResult : Obligations.OutResult := by
  intro s
  rw [← lowByte_eq_ofNat_mod]
  exact ⟨serviceOut s, rfl, link_emit_writes s [lowByte (s.reg .r0)]⟩

end Sys2Proof.Proofs
end

section
/-! PROOFS of the family 70_reset_and_hazards.md: what one image loads (R285, R286), and what several leave (R289). -/

namespace Sys2Proof.Proofs

open Sys2Proof.Machine Sys2Proof.Laws

/-! ## One image (R285, R286) -/

/-- A big-endian word in plain arithmetic. -/
theorem toNat_imageWord (hi lo : Byte) : (imageWord hi lo).toNat = hi.toNat * 256 + lo.toNat := by
  rw [imageWord, BitVec.toNat_append, ← Nat.shiftLeft_add_eq_or_of_lt lo.isLt, Nat.shiftLeft_eq]

/-- A body that starts at the top of memory or past it is dropped whole. -/
theorem loadBody_pastTop (m : Memory) {k : Nat} (hk : 65536 ≤ k) (body : List Byte) : loadBody m k body = m := by
  unfold loadBody
  split
  · exact if_neg (Nat.not_lt.mpr hk)
  · rfl

/-- A word after a body is loaded from `k` on: the body's word at its distance from `k` where the body reaches it, else
as before. No address is past the top, so the drop there takes no word away from this. -/
theorem load_loadBody (m : Memory) (k : Nat) (body : List Byte) (x : Word) :
    (loadBody m k body).load x =
      if k ≤ x.toNat ∧ x.toNat - k < body.length / 2 then
        imageWord (body.getD (2 * (x.toNat - k)) 0) (body.getD (2 * (x.toNat - k) + 1) 0)
      else m.load x := by
  induction body using List.twoStepInduction generalizing m k with
  | nil => simp [loadBody]
  | singleton b => simp [loadBody]
  | cons_cons hi lo rest ih _ =>
    have hlength : (hi :: lo :: rest).length / 2 = rest.length / 2 + 1 := Nat.add_div_right _ two_pos
    rw [hlength]
    by_cases hk : k < 65536
    case neg => rw [loadBody_pastTop m (by omega), if_neg (by have := x.isLt; omega)]
    case pos =>
      have hstep : loadBody m k (hi :: lo :: rest) =
          loadBody (m.store (BitVec.ofNat 16 k) (imageWord hi lo)) (k + 1) rest := if_pos hk
      have hknat : (BitVec.ofNat 16 k).toNat = k := Nat.mod_eq_of_lt hk
      rw [hstep, ih]
      obtain hx | hx | hx := Nat.lt_trichotomy x.toNat k
      · have hne : x ≠ BitVec.ofNat 16 k := by rintro rfl; omega
        rw [if_neg (by omega), if_neg (by omega), load_store_other _ _ _ hne]
      · obtain rfl : x = BitVec.ofNat 16 k := BitVec.eq_of_toNat_eq (hx.trans hknat.symm)
        rw [if_neg (by omega), if_pos (by omega), load_store_same, hx, Nat.sub_self]
        rfl
      · have hne : x ≠ BitVec.ofNat 16 k := by rintro rfl; omega
        have hdist : x.toNat - k = (x.toNat - (k + 1)) + 1 := by omega
        rw [load_store_other _ _ _ hne, hdist]
        exact if_congr (by omega) rfl rfl

/-- A word after an image's body is loaded from its origin on: the one the image gives, else the one that was there. -/
theorem toNat_load_loadBody (m : Memory) (i : Image) (x : Word) :
    ((loadBody m (i.originHi.toNat * 256 + i.originLo.toNat) i.body).load x).toNat =
      (i.wordAt x).getD (m.load x).toNat := by
  rw [load_loadBody]
  unfold Image.wordAt
  dsimp only
  split
  · exact toNat_imageWord _ _
  · rfl

/-- An image with a body of whole words loads. -/
theorem loadImage_file (m : Memory) {i : Image} (heven : i.body.length % 2 = 0) :
    loadImage m i.file = .ok (loadBody m (i.originHi.toNat * 256 + i.originLo.toNat) i.body) := by
  rw [← toNat_imageWord]
  exact if_neg (by omega)

/-- Settles O57: the image loads (`loadImage_file`), and `load_loadBody` says what each word then is. -/
theorem imageLoadsFromItsOrigin : Obligations.ImageLoadsFromItsOrigin := by
  intro m hi lo body heven
  refine ⟨_, loadImage_file m (i := ⟨hi, lo, body⟩) heven, fun x => ?_⟩
  rw [load_loadBody]
  dsimp only
  split
  · exact toNat_imageWord _ _
  · rfl

/-! ## Several images (R289) -/

/-- Several images with bodies of whole words load, and leave in each word what the last one that reaches it gives, else
what was there. -/
theorem loadImages_files (m : Memory) {images : List Image} (heven : ∀ i ∈ images, i.body.length % 2 = 0) :
    ∃ m', loadImages m (images.map Image.file) = .ok m' ∧
      ∀ x, (m'.load x).toNat = (images.reverse.findSome? (fun i => i.wordAt x)).getD (m.load x).toNat := by
  induction images generalizing m with
  | nil => exact ⟨m, rfl, fun _ => rfl⟩
  | cons i is ih =>
    obtain ⟨hi, his⟩ := List.forall_mem_cons.mp heven
    obtain ⟨m', hload, hwords⟩ := ih (loadBody m (i.originHi.toNat * 256 + i.originLo.toNat) i.body) his
    refine ⟨m', ?_, fun x => ?_⟩
    · rw [List.map_cons, loadImages, loadImage_file m hi]
      exact hload
    · rw [hwords, toNat_load_loadBody, List.reverse_cons, List.findSome?_append, List.findSome?_singleton,
        Option.getD_or]

/-- If every image loads, of one or more, the machine boots on the memory they leave. -/
theorem bootImages_of_loadImages {images : List (Option (List Byte))} (hne : images ≠ []) {m : Memory}
    (hload : loadImages State.reset.mem images = .ok m) (q : List Byte) (sc : List (List Byte)) :
    bootImages images q sc = .ok (State.boot m q sc) := by
  unfold bootImages
  split
  · exact absurd rfl hne
  · rw [hload]

/-- Settles O59: memory is what `loadImages_files` says over a memory that reads 0 everywhere (`load_empty`), and boot
leaves the PC of reset. -/
theorem laterImagesOverwriteEarlierOnes : Obligations.LaterImagesOverwriteEarlierOnes := by
  intro images q sc hne heven
  obtain ⟨m, hload, hwords⟩ := loadImages_files State.reset.mem heven
  refine ⟨State.boot m q sc, bootImages_of_loadImages (by simpa using hne) hload q sc, rfl, fun x => ?_⟩
  have hzero : (State.reset.mem.load x).toNat = 0 := congrArg BitVec.toNat (load_empty x)
  rw [← hzero]
  exact hwords x

end Sys2Proof.Proofs
end

section
/-! PROOFS of the family 30_encoding.md: the decoder as a relation (R99), and decoding against encoding (R83 to R97). -/

namespace Sys2Proof.Proofs

open Sys2Proof.Laws

/-! ## The decoder as a relation (R99) -/

/-- `Decodes w i`: the opcode and mode bits of `w` select the format of `i`, whose operands are the fields of `w`. -/
inductive Decodes (w : Word) : Instr → Prop where
  | br (op : field w 12 4 = 0x0#4) :
      Decodes w (.br (w.getLsbD 11) (w.getLsbD 10) (w.getLsbD 9) (field w 0 9))
  | addImm (op : field w 12 4 = 0x1#4) (mode : w.getLsbD 5 = true) :
      Decodes w (.addImm (regField w 9) (regField w 6) (field w 0 5))
  | addReg (op : field w 12 4 = 0x1#4) (mode : w.getLsbD 5 = false) :
      Decodes w (.addReg (regField w 9) (regField w 6) (regField w 0))
  | ld (op : field w 12 4 = 0x2#4) : Decodes w (.ld (regField w 9) (field w 0 9))
  | st (op : field w 12 4 = 0x3#4) : Decodes w (.st (regField w 9) (field w 0 9))
  | jsr (op : field w 12 4 = 0x4#4) (mode : w.getLsbD 11 = true) : Decodes w (.jsr (field w 0 11))
  | jsrr (op : field w 12 4 = 0x4#4) (mode : w.getLsbD 11 = false) : Decodes w (.jsrr (regField w 6))
  | andImm (op : field w 12 4 = 0x5#4) (mode : w.getLsbD 5 = true) :
      Decodes w (.andImm (regField w 9) (regField w 6) (field w 0 5))
  | andReg (op : field w 12 4 = 0x5#4) (mode : w.getLsbD 5 = false) :
      Decodes w (.andReg (regField w 9) (regField w 6) (regField w 0))
  | ldr (op : field w 12 4 = 0x6#4) : Decodes w (.ldr (regField w 9) (regField w 6) (field w 0 6))
  | str (op : field w 12 4 = 0x7#4) : Decodes w (.str (regField w 9) (regField w 6) (field w 0 6))
  | rti (op : field w 12 4 = 0x8#4) : Decodes w .rti
  | not (op : field w 12 4 = 0x9#4) : Decodes w (.not (regField w 9) (regField w 6))
  | ldi (op : field w 12 4 = 0xA#4) : Decodes w (.ldi (regField w 9) (field w 0 9))
  | sti (op : field w 12 4 = 0xB#4) : Decodes w (.sti (regField w 9) (field w 0 9))
  | jmp (op : field w 12 4 = 0xC#4) : Decodes w (.jmp (regField w 6))
  | res (op : field w 12 4 = 0xD#4) : Decodes w .res
  | lea (op : field w 12 4 = 0xE#4) : Decodes w (.lea (regField w 9) (field w 0 9))
  | trap (op : field w 12 4 = 0xF#4) : Decodes w (decodeTrap (field w 0 8))

/-- What the relation allows is what the decoder gives. -/
theorem Decodes.decode_eq {w : Word} {i : Instr} (h : Decodes w i) : decode w = i := by
  unfold decode
  cases h with
  | addImm op mode | jsr op mode | andImm op mode => rw [op]; exact if_pos mode
  | addReg op mode | jsrr op mode | andReg op mode => rw [op]; exact if_neg (Bool.eq_false_iff.mp mode)
  | _ op => rw [op]; rfl

/-- The decoder gives what the relation allows, for every word (R96). -/
theorem decodes_decode (w : Word) : Decodes w (decode w) := by
  unfold decode
  split
  case h_1 op => exact .br (BitVec.eq_of_toNat_eq op)
  case h_2 op =>
    split
    · next mode => exact .addImm (BitVec.eq_of_toNat_eq op) mode
    · next mode => exact .addReg (BitVec.eq_of_toNat_eq op) (Bool.eq_false_iff.mpr mode)
  case h_3 op => exact .ld (BitVec.eq_of_toNat_eq op)
  case h_4 op => exact .st (BitVec.eq_of_toNat_eq op)
  case h_5 op =>
    split
    · next mode => exact .jsr (BitVec.eq_of_toNat_eq op) mode
    · next mode => exact .jsrr (BitVec.eq_of_toNat_eq op) (Bool.eq_false_iff.mpr mode)
  case h_6 op =>
    split
    · next mode => exact .andImm (BitVec.eq_of_toNat_eq op) mode
    · next mode => exact .andReg (BitVec.eq_of_toNat_eq op) (Bool.eq_false_iff.mpr mode)
  case h_7 op => exact .ldr (BitVec.eq_of_toNat_eq op)
  case h_8 op => exact .str (BitVec.eq_of_toNat_eq op)
  case h_9 op => exact .rti (BitVec.eq_of_toNat_eq op)
  case h_10 op => exact .not (BitVec.eq_of_toNat_eq op)
  case h_11 op => exact .ldi (BitVec.eq_of_toNat_eq op)
  case h_12 op => exact .sti (BitVec.eq_of_toNat_eq op)
  case h_13 op => exact .jmp (BitVec.eq_of_toNat_eq op)
  case h_14 op => exact .res (BitVec.eq_of_toNat_eq op)
  case h_15 op => exact .lea (BitVec.eq_of_toNat_eq op)
  case h_16 =>
    refine .trap (BitVec.eq_of_toNat_eq (y := 0xF#4) ?_)
    have hlt := (field w 12 4).isLt
    change (field w 12 4).toNat = 15
    simp only [imp_false] at *
    omega

/-- Bits that the instruction does not use do not matter to the relation (R95). -/
theorem Decodes.of_agree {w w' : Word} {i : Instr} (h : Decodes w i)
    (hagree : w' &&& usedBits i = w &&& usedBits i) : Decodes w' i := by
  have hfield : ∀ lo n, field (usedBits i) lo n = BitVec.allOnes n → field w lo n = field w' lo n :=
    fun _ _ hused => (field_of_mask hagree hused).symm
  have hbit : ∀ k, field (usedBits i) k 1 = BitVec.allOnes 1 → w.getLsbD k = w'.getLsbD k := fun k hused => by
    rw [bit_eq_field, bit_eq_field, hfield k 1 hused]
  cases h with
  | trap op =>
    rw [usedBits_decodeTrap] at hfield
    rw [hfield _ _ rfl] at op ⊢
    exact .trap op
  | addImm op mode | addReg op mode | jsr op mode | jsrr op mode | andImm op mode | andReg op mode =>
    dsimp only [usedBits] at hfield hbit
    simp (disch := decide) only [regField, hfield, hbit] at op mode ⊢
    constructor <;> assumption
  | _ op =>
    dsimp only [usedBits] at hfield hbit
    simp (disch := decide) only [regField, hfield, hbit] at op ⊢
    constructor
    assumption

/-- Settles O3: the relation holds of both words (`Decodes.of_agree`), and it fixes what the decoder gives. -/
theorem ignoredBitsAreIgnored : Obligations.IgnoredBitsAreIgnored :=
  fun w _ hagree => ((decodes_decode w).of_agree hagree).decode_eq

/-! ## Encoding what was decoded -/

/-- The word of a vector's instruction, by name or not (R91). -/
theorem encode_decodeTrap (v : BitVec 8) : encode (decodeTrap v) = 0xF#4 ++ 0#4 ++ v := by
  unfold decodeTrap
  split
  case h_7 => rfl
  all_goals next hv => exact congrArg (0xF#4 ++ 0#4 ++ ·) (BitVec.eq_of_toNat_eq hv.symm)

/-- Two adjacent fields side by side are one field. -/
theorem append_eq_field {x : Word} {lo m n : Nat} {a : BitVec m} {b : BitVec n} (ha : a = field x (lo + n) m)
    (hb : b = field x lo n) : a ++ b = field x lo (m + n) := by
  subst ha hb
  refine BitVec.eq_of_getLsbD_eq fun k hk => ?_
  by_cases hkn : k < n
  · rw [bit_append_low _ _ hkn]
    simp [field, hkn, hk]
  · rw [bit_append_high _ _ (by omega)]
    have hkm : k - n < m := by omega
    have hsum : lo + n + (k - n) = lo + k := by omega
    simp [field, hk, hkm, hsum]

/-- A field that the mask covers is kept by it. -/
theorem field_and_of_ones {m : Word} {lo n : Nat} (hm : field m lo n = BitVec.allOnes n) (w : Word) :
    field (w &&& m) lo n = field w lo n := by
  rw [field_and, hm, BitVec.and_allOnes]

/-- A field outside the mask is cleared by it. -/
theorem field_and_of_zeros {m : Word} {lo n : Nat} (hm : field m lo n = 0#n) (w : Word) :
    field (w &&& m) lo n = 0#n := by
  rw [field_and, hm, BitVec.and_zero]

/-- A field of one bit. -/
theorem field_one (w : Word) (k : Nat) : field w k 1 = BitVec.ofBool (w.getLsbD k) := by
  rw [bit_eq_field]
  generalize field w k 1 = b
  revert b; decide

/-- The number of the register a field names is the field. -/
@[simp] theorem regField_toBits (w : Word) (lo : Nat) : (regField w lo).toBits = field w lo 3 :=
  toBits_ofBits (field w lo 3)

/-- Settles O6: the parts of the encoding are adjacent fields of the masked word: the opcode and mode bits, the operands,
and zeros for the ignored bits. -/
theorem encodeOfDecodeClearsIgnoredBits : Obligations.EncodeOfDecodeClearsIgnoredBits := by
  intro w
  have hdecode := decodes_decode w
  generalize decode w = i at hdecode
  refine Eq.trans ?_ (field_whole (w &&& usedBits i))
  cases hdecode
  case' trap => rw [encode_decodeTrap, usedBits_decodeTrap]
  all_goals
    repeat' apply append_eq_field
    all_goals simp (disch := decide) only [usedBits, field_and_of_ones, field_and_of_zeros, regField_toBits,
      Nat.reduceAdd, *]
  all_goals simp only [field_one, *]
  all_goals rfl

/-- The bits of an instruction's row are among those the instruction uses. -/
theorem usedBits_and_tableMask (i : Instr) : usedBits i &&& tableMask i = tableMask i := by
  cases i <;> dsimp only [usedBits, tableMask] <;> decide

/-- What the relation allows is well-formed: the vectors with constructors of their own are not given as TRAP (R97). -/
theorem Decodes.wf {w : Word} {i : Instr} (h : Decodes w i) : i.wf = true := by
  cases h with
  | trap => exact wf_decodeTrap (field w 0 8)
  | _ => rfl

/-- The decoder gives well-formed instructions only. -/
theorem wf_decode (w : Word) : (decode w).wf = true := (decodes_decode w).wf

/-- The encoder's word matches the row of the opcode table, for every instruction. -/
theorem encodingFits (i : Instr) : EncodingFits.Statement i := by
  cases i
  exacts [EncodingFits.br _ _ _ _, EncodingFits.addReg _ _ _, EncodingFits.addImm _ _ _, EncodingFits.ld _ _,
    EncodingFits.st _ _, EncodingFits.jsr _, EncodingFits.jsrr _, EncodingFits.andReg _ _ _,
    EncodingFits.andImm _ _ _, EncodingFits.ldr _ _ _, EncodingFits.str _ _ _, EncodingFits.rti,
    EncodingFits.not _ _, EncodingFits.ldi _ _, EncodingFits.sti _ _, EncodingFits.jmp _, EncodingFits.res,
    EncodingFits.lea _ _, EncodingFits.trap _, EncodingFits.getc, EncodingFits.out, EncodingFits.puts,
    EncodingFits.inChar, EncodingFits.putsp, EncodingFits.halt]

/-- Settles O4: the row's fixed bits are among the used ones, which the encoding shares with the word (O6), and the
encoding fits the row. -/
theorem everyWordMatchesItsTableRow : Obligations.EveryWordMatchesItsTableRow := by
  intro w
  refine ⟨wf_decode w, ?_⟩
  rw [← usedBits_and_tableMask, ← BitVec.and_assoc, ← encodeOfDecodeClearsIgnoredBits w]
  exact encodingFits (decode w)

/-! ## Decoding what was encoded -/

/-- The vector of a well-formed TRAP term is outside the trap table (44_trap.md R202). -/
theorem undefined_of_wf_trap {vect : BitVec 8} (hwf : (Instr.trap vect).wf = true) :
    vect.toNat < 0x20 ∨ 0x25 < vect.toNat := by
  have hvect : ¬(0x20 ≤ vect.toNat ∧ vect.toNat ≤ 0x25) := by
    rw [← isServiceVector_eq]; simpa [Instr.wf] using hwf
  omega

/-- A bit that the encoder writes is read back as it was. -/
theorem ofBool_getLsbD_zero (b : Bool) : (BitVec.ofBool b).getLsbD 0 = b := by
  cases b <;> rfl

/-- Settles O5: by the instruction's format, whose opcode, mode and operands are each one part of the encoding. -/
theorem decodeOfEncodeIsTheInstruction : Obligations.DecodeOfEncodeIsTheInstruction := by
  intro i hwf
  cases i
  case rti | res | getc | out | puts | inChar | putsp | halt => decide
  case trap vect =>
    have hop : field (encode (.trap vect)) 12 4 = 0xF#4 := field_append_high _ vect (by decide)
    have hvect : field (encode (.trap vect)) 0 8 = vect :=
      (field_append_low _ vect (by decide)).trans (field_whole vect)
    rw [(Decodes.trap hop).decode_eq, hvect]
    exact decodeTrap_other (undefined_of_wf_trap hwf)
  case' br => refine (Decodes.br ?_).decode_eq.trans ?_
  case' addReg => refine (Decodes.addReg ?_ ?_).decode_eq.trans ?_
  case' addImm => refine (Decodes.addImm ?_ ?_).decode_eq.trans ?_
  case' ld => refine (Decodes.ld ?_).decode_eq.trans ?_
  case' st => refine (Decodes.st ?_).decode_eq.trans ?_
  case' jsr => refine (Decodes.jsr ?_ ?_).decode_eq.trans ?_
  case' jsrr => refine (Decodes.jsrr ?_ ?_).decode_eq.trans ?_
  case' andReg => refine (Decodes.andReg ?_ ?_).decode_eq.trans ?_
  case' andImm => refine (Decodes.andImm ?_ ?_).decode_eq.trans ?_
  case' ldr => refine (Decodes.ldr ?_).decode_eq.trans ?_
  case' str => refine (Decodes.str ?_).decode_eq.trans ?_
  case' not => refine (Decodes.not ?_).decode_eq.trans ?_
  case' ldi => refine (Decodes.ldi ?_).decode_eq.trans ?_
  case' sti => refine (Decodes.sti ?_).decode_eq.trans ?_
  case' jmp => refine (Decodes.jmp ?_).decode_eq.trans ?_
  case' lea => refine (Decodes.lea ?_).decode_eq.trans ?_
  all_goals
    simp (disch := decide) only [encode, regField, field, field_append_low, field_append_high, field_whole,
      bit_append_low, bit_append_high, ofBool_getLsbD_zero, ofBits_toBits, Nat.reduceSub]
  all_goals rfl

/-! ## The decoder in arithmetic (R99) -/

/-- A bit in the arithmetic of the word's number. -/
theorem getLsbD_eq_arith (w : Word) (k : Nat) : w.getLsbD k = (w.toNat / 2 ^ k % 2 ^ 1 == 1) := by
  rw [bit_eq_field, field_eq_ofNat]
  obtain h | h : w.toNat / 2 ^ k % 2 ^ 1 = 0 ∨ w.toNat / 2 ^ k % 2 ^ 1 = 1 := by omega
  all_goals rw [h]; rfl

/-- The register a field names, from the list of registers. -/
theorem regField_eq_getD (w : Word) (lo : Nat) :
    regField w lo = [Reg.r0, .r1, .r2, .r3, .r4, .r5, .r6, .r7].getD (w.toNat / 2 ^ lo % 2 ^ 3) .r0 := by
  rw [regField, field_eq_ofNat]
  have hlt : w.toNat / 2 ^ lo % 2 ^ 3 < 8 := Nat.mod_lt _ (by decide)
  generalize w.toNat / 2 ^ lo % 2 ^ 3 = k at hlt
  interval_cases k <;> rfl

/-- Settles O2: the relation's cases, with each field, register and bit in arithmetic. -/
theorem decodeReadsTheFieldsOfEveryWord : Obligations.DecodeReadsTheFieldsOfEveryWord := by
  intro w
  dsimp only
  simp only [← regField_eq_getD, ← field_eq_ofNat, ← getLsbD_eq_arith]
  have hop : ∀ {c : Nat}, w.toNat / 2 ^ 12 % 2 ^ 4 = c → field w 12 4 = BitVec.ofNat 4 c := fun h => by
    rw [field_eq_ofNat, h]
  have hset : ∀ {k : Nat}, w.toNat / 2 ^ k % 2 ^ 1 = 1 → w.getLsbD k = true := fun h => by
    rw [getLsbD_eq_arith, h]; rfl
  have hclear : ∀ {k : Nat}, w.toNat / 2 ^ k % 2 ^ 1 = 0 → w.getLsbD k = false := fun h => by
    rw [getLsbD_eq_arith, h]; rfl
  have hservice : ∀ {c : Nat}, w.toNat / 2 ^ 12 % 2 ^ 4 = 0xF → w.toNat / 2 ^ 0 % 2 ^ 8 = c →
      decode w = decodeTrap (BitVec.ofNat 8 c) := fun h hv => by
    rw [(Decodes.trap (hop h)).decode_eq, field_eq_ofNat, hv]
  have hvect : (field w 0 8).toNat = w.toNat / 2 ^ 0 % 2 ^ 8 := by simp [field]
  exact ⟨fun h => (Decodes.br (hop h)).decode_eq,
    fun h hm => (Decodes.addImm (hop h) (hset hm)).decode_eq,
    fun h hm => (Decodes.addReg (hop h) (hclear hm)).decode_eq,
    fun h => (Decodes.ld (hop h)).decode_eq, fun h => (Decodes.st (hop h)).decode_eq,
    fun h hm => (Decodes.jsr (hop h) (hset hm)).decode_eq,
    fun h hm => (Decodes.jsrr (hop h) (hclear hm)).decode_eq,
    fun h hm => (Decodes.andImm (hop h) (hset hm)).decode_eq,
    fun h hm => (Decodes.andReg (hop h) (hclear hm)).decode_eq,
    fun h => (Decodes.ldr (hop h)).decode_eq, fun h => (Decodes.str (hop h)).decode_eq,
    fun h => (Decodes.rti (hop h)).decode_eq, fun h => (Decodes.not (hop h)).decode_eq,
    fun h => (Decodes.ldi (hop h)).decode_eq, fun h => (Decodes.sti (hop h)).decode_eq,
    fun h => (Decodes.jmp (hop h)).decode_eq, fun h => (Decodes.res (hop h)).decode_eq,
    fun h => (Decodes.lea (hop h)).decode_eq,
    hservice, hservice, hservice, hservice, hservice, hservice,
    fun h hv => (Decodes.trap (hop h)).decode_eq.trans (decodeTrap_other (hvect ▸ hv))⟩

end Sys2Proof.Proofs
end

section
/-! PROOFS of the family 10_state.md: the log (R33) and COND (R27) are not read, but for COND by BR. -/

namespace Sys2Proof.Proofs

open Sys2Proof.Machine Sys2Proof.Laws

/-! ## A step, by whether IN is blocked (40_dispatch.md R110, R118) -/

/-- A machine blocked in IN reads on. -/
theorem step_of_blocked {s : State} (hrun : s.status = .running) (hwait : s.inWait = true) :
    step s = .next (inRead s.hostMove) := by
  simp [step, hrun, coreStep, hwait]

/-- Any other running machine fetches, decodes and executes. -/
theorem step_of_ready {s : State} (hrun : s.status = .running) (hwait : s.inWait = false) :
    step s = exec (decode s.hostMove.fetch.1) s.hostMove.fetch.2 := by
  simp [step, hrun, coreStep, hwait]

/-! ## COND and the log replaced -/

/-- `s` with COND and the output log replaced. -/
def relabel (s : State) (c : Cond) (o : List Byte) : State := { s with cond := c, out := o }

/-- A PC-relative address depends on neither. -/
theorem pcRelative_relabel {n : Nat} (s : State) (c : Cond) (o : List Byte) (off : BitVec n) :
    pcRelative (relabel s c o) off = pcRelative s off := rfl

/-- A MemRead reads neither COND nor the log. -/
theorem memRead_relabel (s : State) (c : Cond) (o : List Byte) (a : Word) :
    (relabel s c o).memRead a = ((s.memRead a).1, relabel (s.memRead a).2 c o) := by
  obtain ⟨ha, hread⟩ | ⟨rfl, hq, hread⟩ | ⟨b, q, rfl, hq, hread⟩ := memRead_cases s a <;> rw [hread]
  · exact memRead_plain _ ha
  · exact memRead_kbsr_empty hq
  · exact memRead_kbsr_key hq

/-- A load overwrites COND, so it does not keep what COND was. -/
theorem loadTo_relabel (s : State) (c : Cond) (o : List Byte) (dr : Reg) (a : Word) :
    loadTo dr a (relabel s c o) = relabel (loadTo dr a s) (loadTo dr a s).cond o := by
  unfold loadTo; rw [memRead_relabel]; rfl

/-- JSRR reads neither COND nor the log. -/
theorem jsrrCall_relabel (order : JsrrBaseRead) (base : Reg) (s : State) (c : Cond) (o : List Byte) :
    jsrrCall order base (relabel s c o) = relabel (jsrrCall order base s) c o := by
  cases order <;> rfl

/-- An undefined vector reads neither COND nor the log. -/
theorem undefinedTrap_relabel (policy : UnknownTrap) (vect : BitVec 8) (s : State) (c : Cond) (o : List Byte) :
    undefinedTrap policy vect (relabel s c o) = relabel (undefinedTrap policy vect s) c o := by
  cases policy <;> rfl

/-- A string routine whose walk ends at a zero word. -/
theorem printString_of_none {emitWord : Word → List Byte} {s : State}
    (h : (stringAt s.mem emitWord (s.reg .r0)).2 = none) :
    printString emitWord s = (s.link.emit (stringAt s.mem emitWord (s.reg .r0)).1).trapReturn := by
  obtain ⟨-, hprint⟩ | ⟨e, he, -⟩ := printString_cases emitWord s
  · exact hprint
  · cases h.symm.trans he

/-- A string routine whose walk ends in a fault. -/
theorem printString_of_some {emitWord : Word → List Byte} {s : State} {e : AbortReason}
    (h : (stringAt s.mem emitWord (s.reg .r0)).2 = some e) :
    printString emitWord s = (s.link.emit (stringAt s.mem emitWord (s.reg .r0)).1).raise e := by
  obtain ⟨hnone, -⟩ | ⟨e', he, hprint⟩ := printString_cases emitWord s
  · cases h.symm.trans hnone
  · cases h.symm.trans he; exact hprint

/-- A string routine reads neither COND nor the log, and appends the bytes of the string. -/
theorem printString_relabel (emitWord : Word → List Byte) (s : State) :
    ∃ written, ∀ c o, printString emitWord (relabel s c o) = relabel (printString emitWord s) c (o ++ written) := by
  refine ⟨(stringAt s.mem emitWord (s.reg .r0)).1, fun c o => ?_⟩
  cases hend : (stringAt s.mem emitWord (s.reg .r0)).2 with
  | none => rw [printString_of_none hend, printString_of_none (s := relabel s c o) hend]; rfl
  | some e => rw [printString_of_some hend, printString_of_some (s := relabel s c o) hend]; rfl

/-- The service routine of OUT appends its byte. -/
theorem serviceOut_relabel (s : State) (c : Cond) (o : List Byte) :
    serviceOut (relabel s c o) = relabel (serviceOut s) c (o ++ [lowByte (s.reg .r0)]) := rfl

/-- The service routine of HALT appends its notice. -/
theorem serviceHalt_relabel (s : State) (c : Cond) (o : List Byte) :
    serviceHalt (relabel s c o) = relabel (serviceHalt s) c (o ++ Config.haltNotice) := rfl

/-- IN's read with a byte sets COND and echoes the byte. -/
theorem inRead_relabel_byte {s : State} {b : Byte} {rest : List Byte} (h : s.inq = b :: rest) (c : Cond) (o : List Byte) :
    inRead (relabel s c o) = relabel (inRead s) (inRead s).cond (o ++ [b]) := by
  rw [inRead_byte h, inRead_byte (s := relabel s c o) h]; rfl

/-- IN's read with no byte keeps COND and writes nothing. -/
theorem inRead_relabel_empty {s : State} (h : s.inq = []) (c : Cond) (o : List Byte) :
    inRead (relabel s c o) = relabel (inRead s) c o := by
  rw [inRead_empty h, inRead_empty (s := relabel s c o) h]; rfl

/-! ## An instruction reads neither -/

/-- `exec i` takes `s`, with COND replaced by any `c` and the log by any, to `t` with COND replaced by `cond c` and the same
bytes appended to that log. -/
def ReadsNeither (i : Instr) (s t : State) (cond : Cond → Cond) : Prop :=
  ∃ written, ∀ c o, exec i (relabel s c o) = .next (relabel t (cond c) (o ++ written))

/-- The case in which no byte is appended. -/
theorem readsNeither_of_silent {i : Instr} {s t : State} {cond : Cond → Cond}
    (h : ∀ c o, exec i (relabel s c o) = .next (relabel t (cond c) o)) : ReadsNeither i s t cond :=
  ⟨[], fun c o => by rw [List.append_nil, h]⟩

/-- An instruction that sets COND leads to the same COND from any. -/
theorem exec_readsNeither_of_sets {i : Instr} {s t : State} (hexec : exec i s = .next t) (hsets : flagTarget i ≠ none)
    (hbyte : takesInput i = true → s.inq ≠ []) : ReadsNeither i s t (fun _ => t.cond) := by
  cases i with
  | addReg | addImm | andReg | andImm | not | lea => cases hexec; exact readsNeither_of_silent fun _ _ => rfl
  | ld dr off =>
    cases hexec; exact readsNeither_of_silent fun c o => congrArg _ (loadTo_relabel s c o dr (pcRelative s off))
  | ldr dr base off =>
    cases hexec; exact readsNeither_of_silent fun c o => congrArg _ (loadTo_relabel s c o dr (baseOffset s base off))
  | ldi dr off =>
    cases hexec
    refine readsNeither_of_silent fun c o => congrArg Host.Outcome.next ?_
    simp only [pcRelative_relabel, memRead_relabel, loadTo_relabel]
  | getc =>
    cases hexec
    obtain ⟨b, rest, hq⟩ := List.exists_cons_of_ne_nil (hbyte rfl)
    refine readsNeither_of_silent fun c o => congrArg Host.Outcome.next ?_
    rw [serviceGetc_byte hq, serviceGetc_byte (s := relabel s c o) hq]
    rfl
  | inChar =>
    cases hexec
    obtain ⟨b, rest, hq⟩ := List.exists_cons_of_ne_nil (hbyte rfl)
    refine ⟨Config.inPrompt ++ [b], fun c o => congrArg Host.Outcome.next ?_⟩
    rw [← List.append_assoc]
    exact inRead_relabel_byte (s := s.link.emit Config.inPrompt) hq c (o ++ Config.inPrompt)
  | br | st | jsr | jsrr | str | rti | sti | jmp | res | trap | out | puts | putsp | halt => exact absurd rfl hsets

/-- An instruction other than BR that does not set COND keeps any. -/
theorem exec_readsNeither_of_keeps {i : Instr} {s t : State} (hwf : i.wf = true) (hbr : ∀ n z p off, i ≠ .br n z p off)
    (hexec : exec i s = .next t) (hkeeps : flagTarget i = none ∨ (takesInput i = true ∧ s.inq = [])) :
    ReadsNeither i s t id := by
  cases i with
  | br n z p off => exact absurd rfl (hbr n z p off)
  | st | jsr | str | rti | jmp | res => cases hexec; exact readsNeither_of_silent fun _ _ => rfl
  | sti sr off =>
    cases hexec
    refine readsNeither_of_silent fun c o => congrArg Host.Outcome.next ?_
    simp only [pcRelative_relabel, memRead_relabel]
    rfl
  | jsrr base =>
    cases hexec; exact readsNeither_of_silent fun c o => congrArg _ (jsrrCall_relabel Config.jsrrBaseRead base s c o)
  | trap vect =>
    cases hexec
    refine readsNeither_of_silent fun c o => congrArg Host.Outcome.next ?_
    rw [trapDispatch_of_wf hwf, trapDispatch_of_wf hwf]
    exact undefinedTrap_relabel Config.unknownTrap vect s c o
  | out => cases hexec; exact ⟨_, fun c o => congrArg _ (serviceOut_relabel s c o)⟩
  | halt => cases hexec; exact ⟨_, fun c o => congrArg _ (serviceHalt_relabel s c o)⟩
  | puts =>
    cases hexec
    obtain ⟨written, hprint⟩ := printString_relabel putsBytes s
    exact ⟨written, fun c o => congrArg _ (hprint c o)⟩
  | putsp =>
    cases hexec
    obtain ⟨written, hprint⟩ := printString_relabel putspBytes s
    exact ⟨written, fun c o => congrArg _ (hprint c o)⟩
  | getc =>
    cases hexec
    obtain hnone | ⟨-, hq⟩ := hkeeps
    · cases hnone
    refine readsNeither_of_silent fun c o => congrArg Host.Outcome.next ?_
    rw [serviceGetc_empty hq, serviceGetc_empty (s := relabel s c o) hq]
    rfl
  | inChar =>
    cases hexec
    obtain hnone | ⟨-, hq⟩ := hkeeps
    · cases hnone
    exact ⟨Config.inPrompt, fun c o =>
      congrArg _ (inRead_relabel_empty (s := s.link.emit Config.inPrompt) hq c (o ++ Config.inPrompt))⟩
  | addReg | addImm | andReg | andImm | not | ld | ldi | ldr | lea => simp [flagTarget, takesInput] at hkeeps

/-! ## COND is read by BR only (R27) -/

/-- The bytes appended to any log are those that the machine appends to its own, and its COND is what `cond` says. -/
theorem ReadsNeither.next {i : Instr} {s t : State} {cond : Cond → Cond} (h : ReadsNeither i s t cond)
    (hexec : exec i s = .next t) : ∃ written, t.out = s.out ++ written ∧ t.cond = cond s.cond ∧
      ∀ c o, exec i (relabel s c o) = .next (relabel t (cond c) (o ++ written)) := by
  obtain ⟨written, hall⟩ := h
  have ht : t = relabel t (cond s.cond) (s.out ++ written) :=
    Host.Outcome.next.inj (hexec.symm.trans (hall s.cond s.out))
  exact ⟨written, congrArg State.out ht, congrArg State.cond ht, hall⟩

/-- The same instruction from `s` with another COND. -/
theorem ReadsNeither.from_cond {i : Instr} {s t : State} {cond : Cond → Cond} (h : ReadsNeither i s t cond)
    (hexec : exec i s = .next t) (c : Cond) : exec i { s with cond := c } = .next { t with cond := cond c } := by
  obtain ⟨written, hout, -, hall⟩ := h.next hexec
  calc exec i (relabel s c s.out)
      = .next (relabel t (cond c) (s.out ++ written)) := hall c s.out
    _ = .next (relabel t (cond c) t.out) := by rw [hout]

/-- An instruction that does not set COND on `s` is outside R26's list, or waits for its byte. -/
theorem keeps_of_not_sets {i : Instr} {s : State}
    (h : ¬(flagTarget i ≠ none ∧ (takesInput i = true → s.inq ≠ []))) :
    flagTarget i = none ∨ (takesInput i = true ∧ s.inq = []) := by
  tauto

/-- Settles O53: an instruction that sets COND leads to the same one from any, and any other but BR keeps it. -/
theorem condIsReadByBrOnly : Obligations.CondIsReadByBrOnly := by
  intro i s t c hwf hbr hexec
  split
  · next hsets => exact (exec_readsNeither_of_sets hexec hsets.1 hsets.2).from_cond hexec c
  · next hsets => exact (exec_readsNeither_of_keeps hwf hbr hexec (keeps_of_not_sets hsets)).from_cond hexec c

/-! ## The log is not read (R33) -/

/-- BR as one write of the PC, taken or not. -/
theorem exec_br_eq (n z p : Bool) (off : BitVec 9) (s : State) :
    exec (.br n z p off) s = .next (s.setPc (if branchTaken n z p s.cond then pcRelative s off else s.pc)) := by
  simp only [exec, execBr]
  split <;> rfl

/-- BR, which reads COND, still does not read the log. -/
theorem exec_br_relabel {n z p : Bool} {off : BitVec 9} {s t : State} (hexec : exec (.br n z p off) s = .next t) :
    t.out = s.out ∧ t.cond = s.cond ∧ ∀ o, exec (.br n z p off) (relabel s s.cond o) = .next (relabel t s.cond o) := by
  rw [exec_br_eq] at hexec
  cases hexec
  exact ⟨rfl, rfl, fun o => exec_br_eq n z p off (relabel s s.cond o)⟩

/-- An instruction appends the same bytes to any log, and what else it does does not depend on the log. -/
theorem exec_relabel_log {i : Instr} {s t : State} (hwf : i.wf = true) (hexec : exec i s = .next t) :
    ∃ written, t.out = s.out ++ written ∧
      ∀ o, exec i (relabel s s.cond o) = .next (relabel t t.cond (o ++ written)) := by
  by_cases hbr : ∃ n z p off, i = .br n z p off
  · obtain ⟨n, z, p, off, rfl⟩ := hbr
    obtain ⟨hout, hcond, hall⟩ := exec_br_relabel hexec
    refine ⟨[], by simpa using hout, fun o => ?_⟩
    rw [List.append_nil, hcond, hall]
  · have hbr : ∀ n z p off, i ≠ .br n z p off := by simpa using hbr
    obtain ⟨cond, h⟩ : ∃ cond, ReadsNeither i s t cond := by
      by_cases hsets : flagTarget i ≠ none ∧ (takesInput i = true → s.inq ≠ [])
      · exact ⟨_, exec_readsNeither_of_sets hexec hsets.1 hsets.2⟩
      · exact ⟨_, exec_readsNeither_of_keeps hwf hbr hexec (keeps_of_not_sets hsets)⟩
    obtain ⟨written, hout, hcond, hall⟩ := h.next hexec
    exact ⟨written, hout, fun o => hcond ▸ hall s.cond o⟩

/-- IN's read appends the same bytes to any log. -/
theorem inRead_relabel_log (s : State) : ∃ written, (inRead s).out = s.out ++ written ∧
    ∀ o, inRead (relabel s s.cond o) = relabel (inRead s) (inRead s).cond (o ++ written) := by
  cases hq : s.inq with
  | nil =>
    have hkeeps : inRead s = s.setInWait true := inRead_empty hq
    refine ⟨[], by simp [hkeeps], fun o => ?_⟩
    rw [List.append_nil, inRead_relabel_empty hq, hkeeps, setInWait_cond]
  | cons b rest =>
    exact ⟨[b], by rw [inRead_byte hq]; rfl, fun o => inRead_relabel_byte hq s.cond o⟩

/-- The host's move reads neither COND nor the log. -/
theorem hostMove_relabel (s : State) (c : Cond) (o : List Byte) : (relabel s c o).hostMove = relabel s.hostMove c o := by
  cases s; unfold State.hostMove relabel; dsimp only; split <;> rfl

/-- The fetch reads neither COND nor the log. -/
theorem fetch_relabel (s : State) (c : Cond) (o : List Byte) :
    (relabel s c o).fetch = (s.fetch.1, relabel s.fetch.2 c o) := by
  unfold State.fetch
  rw [show (relabel s c o).pc = s.pc from rfl, memRead_relabel]
  rfl

/-- Settles O52: the log passes unread through the host's move, the fetch and either the instruction or IN's read. -/
theorem outputLogIsNeverReadBack : Obligations.OutputLogIsNeverReadBack := by
  intro s t other hstep
  obtain ⟨hrun, ⟨hwait, rfl⟩ | ⟨hwait, hexec⟩⟩ := step_next_cases hstep
  · obtain ⟨written, hout, hall⟩ := inRead_relabel_log s.hostMove
    refine ⟨written, by simpa using hout, ?_⟩
    calc step (relabel s s.cond other)
        = .next (inRead (relabel s s.cond other).hostMove) := step_of_blocked hrun hwait
      _ = .next (inRead (relabel s.hostMove s.hostMove.cond other)) := by rw [hostMove_relabel, hostMove_cond]
      _ = .next (relabel (inRead s.hostMove) (inRead s.hostMove).cond (other ++ written)) := by rw [hall]
  · obtain ⟨written, hout, hall⟩ := exec_relabel_log (wf_decode _) hexec
    refine ⟨written, by simpa using hout, ?_⟩
    calc step (relabel s s.cond other)
        = exec (decode (relabel s s.cond other).hostMove.fetch.1) (relabel s s.cond other).hostMove.fetch.2 :=
          step_of_ready hrun hwait
      _ = exec (decode s.hostMove.fetch.1) (relabel s.hostMove.fetch.2 s.hostMove.fetch.2.cond other) := by
          rw [hostMove_relabel, fetch_relabel, fetch_cond, hostMove_cond]
      _ = .next (relabel t t.cond (other ++ written)) := hall other

end Sys2Proof.Proofs
end

section
/-! PROOFS of the family 41_alu.md: ADD (R130, R131), AND (R133, R134), NOT (R136), and their laws (R132, R135, R138). -/

namespace Sys2Proof.Proofs

open Sys2Proof.Machine Sys2Proof.Laws

/-- Settles O18: the result is a flagged write of the sum, and an immediate is added as a signed offset is (`add_sext`). -/
theorem addResults : Obligations.AddResults := by
  refine ⟨fun dr sr1 sr2 s => ⟨_, _, rfl, writeFlagged_writes s dr _, BitVec.toNat_add _ _⟩,
    fun dr sr1 imm s => ⟨_, _, rfl, writeFlagged_writes s dr _, ?_⟩⟩
  rw [add_sext (by decide), toNat_plusOffset]

/-- The bits of an extended 5-bit immediate: its own, then copies of its sign. -/
theorem getLsbD_sext_five (imm : BitVec 5) {k : Nat} (hk : k < 16) : (sext imm).getLsbD k = imm.getLsbD (min k 4) := by
  rw [sext_eq_signExtend (by decide), BitVec.getLsbD_signExtend]
  by_cases hk5 : k < 5
  · have hmin : min k 4 = k := by omega
    simp [hk, hk5, hmin]
  · have hmin : min k 4 = 4 := by omega
    simp [hk, hk5, hmin, BitVec.msb_eq_getLsbD_last]

/-- Settles O19: the result is a flagged write of the and, whose bits are the ands of the bits. -/
theorem andResults : Obligations.AndResults := by
  refine ⟨fun dr sr1 sr2 s => ⟨_, _, rfl, writeFlagged_writes s dr _, fun k => BitVec.getLsbD_and⟩,
    fun dr sr1 imm s => ⟨_, _, rfl, writeFlagged_writes s dr _, fun k => ?_⟩⟩
  rw [BitVec.getLsbD_and]
  by_cases hk : k < 16
  · rw [getLsbD_sext_five imm hk]
  · rw [BitVec.getLsbD_of_ge (s.reg sr1) k (by omega), Bool.false_and, Bool.false_and]

/-- Settles O20: the result is a flagged write of the complement. -/
theorem notResult : Obligations.NotResult :=
  fun dr _ s => ⟨_, _, rfl, writeFlagged_writes s dr _, BitVec.toNat_not⟩

/-- A word with the signed value of an immediate is the extended immediate. -/
theorem eq_sext_of_toInt {n : Nat} (hn : n ≤ 16) {w : Word} {v : BitVec n} (h : w.toInt = v.toInt) : w = sext v := by
  rw [sext_eq_signExtend hn]
  exact BitVec.eq_of_toInt_eq (h.trans (BitVec.toInt_signExtend_of_le hn).symm)

/-- Settles O21: the register holds the very word that the immediate is extended to. -/
theorem immediateAndRegisterFormsAgree : Obligations.ImmediateAndRegisterFormsAgree := by
  intro dr sr1 sr2 imm s h
  have hreg : s.reg sr2 = sext imm := eq_sext_of_toInt (by decide) h
  simp only [exec, execAddReg, execAddImm, execAndReg, execAndImm, hreg, and_self]

/-- Complement, plus 1, plus the minuend is the difference. -/
theorem toNat_sub_by_complement (a b : Word) :
    ((a + (~~~b + sext 1#5)).toNat : Int) = ((a.toNat : Int) - b.toNat) % 65536 := by
  have hneg : a + (~~~b + sext 1#5) = a - b := by
    rw [BitVec.sub_eq_add_neg, BitVec.neg_eq_not_add]; rfl
  rw [hneg, BitVec.toNat_sub]
  omega

/-- Settles O22: each of the three is a flagged write of the scratch register, so the minuend is still there for the last,
whose value is `toNat_sub_by_complement`'s. -/
theorem subtractionBySequence : Obligations.SubtractionBySequence := by
  intro scratch a b s hne
  refine ⟨_, _, _, rfl, rfl, rfl, ?_, ?_, ?_, ?_⟩
  · simp only [writeFlagged_reg, if_pos, if_neg hne.symm]
    exact toNat_sub_by_complement (s.reg a) (s.reg b)
  · simpa using flagOf_condOf _
  · intro r hr
    have : r ≠ scratch := by simpa using hr
    simp [this]
  · rfl

end Sys2Proof.Proofs
end

section
/-! PROOFS of the family 42_control.md: BR (R150, R151), JMP (R152), JSR (R153), JSRR (R154). -/

namespace Sys2Proof.Proofs

open Sys2Proof.Machine Sys2Proof.Laws

/-- A write of the PC moves the PC only. -/
theorem setPc_movesPc (s : State) (target : Word) : MovesPc s (s.setPc target) target :=
  ⟨rfl, rfl, rfl, rfl, rfl, rfl, rfl, rfl, rfl⟩

/-- BR is taken if the bit that lines up with COND's flag is set (R151, decision D3). -/
theorem branchTaken_iff (n z p : Bool) (c : Cond) :
    branchTaken n z p c = true ↔ (n ∧ c = .negative) ∨ (z ∧ c = .zero) ∨ (p ∧ c = .positive) := by
  revert n z p
  cases c <;> decide

/-- Settles O23: BR writes the PC and nothing more (`exec_br_eq`), and is taken as `branchTaken_iff` says. -/
theorem branchResult : Obligations.BranchResult := by
  intro n z p off s
  refine ⟨_, exec_br_eq n z p off s, ?_⟩
  simp only [← branchTaken_iff, ← add_sext (n := 9) (by decide)]
  exact setPc_movesPc s _

/-- Settles O24: JMP is a write of the PC and nothing more. -/
theorem jmpResult : Obligations.JmpResult :=
  fun base s => ⟨_, rfl, setPc_movesPc s (s.reg base)⟩

/-- Settles O25: the link, then the jump (`link_setPc_links`), the offset being added to the PC before it. -/
theorem jsrResult : Obligations.JsrResult := by
  intro off s
  rw [← add_sext (by decide)]
  exact ⟨_, rfl, link_setPc_links s (s.pc + sext off)⟩

/-- JSRR links and jumps for both values of JSRR_BASE_READ: reading BaseR after the link gives the link where BaseR is R7. -/
theorem jsrrCall_links (order : JsrrBaseRead) (base : Reg) (s : State) :
    Links s (jsrrCall order base s) (if base = .r7 ∧ order = .afterLink then s.pc else s.reg base) := by
  cases order with
  | afterLink => simpa [jsrrCall] using link_setPc_links s (s.link.reg base)
  | beforeLink => simpa [jsrrCall] using link_setPc_links s (s.reg base)

/-- Settles O26: `jsrrCall_links` at the value the parameter has, whichever it is. -/
theorem jsrrResult : Obligations.JsrrResult :=
  fun base s => ⟨_, rfl, jsrrCall_links Config.jsrrBaseRead base s⟩

end Sys2Proof.Proofs
end

section
/-! PROOFS of the family 43_load_store.md: LD (R170), LDI (R171), LDR (R172), LEA (R173), ST (R174), STI (R175), STR (R176),
and a fetch after a store (20_memory.md R67). -/

namespace Sys2Proof.Proofs

open Sys2Proof.Machine Sys2Proof.Laws

/-- A PC-relative address in exact arithmetic. -/
theorem pcRelative_eq {n : Nat} (hn : n ≤ 16) (s : State) (off : BitVec n) : pcRelative s off = plusOffset s.pc off :=
  add_sext hn s.pc off

/-- A base-relative address in exact arithmetic. -/
theorem baseOffset_eq (s : State) (base : Reg) (off : BitVec 6) : baseOffset s base off = plusOffset (s.reg base) off :=
  add_sext (by decide) (s.reg base) off

/-- A load reads its word with MemRead and writes it as a flagged register. -/
theorem loadTo_loadsWord (s : State) (dr : Reg) (ea : Word) : LoadsWord s (loadTo dr ea s) dr ea := by
  have hreg : (loadTo dr ea s).reg dr = (s.memRead ea).1 := by simp [loadTo]
  refine ⟨?read, ?flag, ?regs, ?pc, ?status, ?out, ?inWait, ?script⟩
  case read => rw [hreg]; exact memRead_readsWord s ea
  case flag => rw [hreg]; exact flagOf_condOf (s.memRead ea).1
  case regs =>
    intro r hr
    have : r ≠ dr := by simpa using hr
    simp [loadTo, this]
  all_goals simp [loadTo]

/-- Settles O27: both are the load of `loadTo_loadsWord`, from their own effective address. -/
theorem ldAndLdrResults : Obligations.LdAndLdrResults := by
  refine ⟨fun dr off s => ⟨_, rfl, ?_⟩, fun dr base off s => ⟨_, rfl, ?_⟩⟩
  · rw [← pcRelative_eq (by decide)]
    exact loadTo_loadsWord s dr (pcRelative s off)
  · rw [← baseOffset_eq]
    exact loadTo_loadsWord s dr (baseOffset s base off)

/-- The state after a MemRead is the one before it with the memory and queue that the read leaves. -/
theorem memRead_snd_eq (s : State) (a : Word) :
    (s.memRead a).2 = { s with mem := (s.memRead a).2.mem, inq := (s.memRead a).2.inq } := by
  obtain ⟨-, hread⟩ | ⟨-, -, hread⟩ | ⟨_, _, -, -, hread⟩ := memRead_cases s a <;> rw [hread] <;> rfl

/-- Settles O28: a MemRead, then a load from the state it leaves (`memRead_snd_eq`). -/
theorem ldiResult : Obligations.LdiResult := by
  intro dr off s
  rw [← pcRelative_eq (by decide)]
  refine ⟨_, _, _, _, rfl, memRead_readsWord s (pcRelative s off), ?_⟩
  rw [← memRead_snd_eq]
  exact loadTo_loadsWord _ dr _

/-- Settles O29: a flagged write of the address itself. -/
theorem leaResult : Obligations.LeaResult := by
  intro dr off s
  rw [← pcRelative_eq (by decide)]
  exact ⟨_, rfl, writeFlagged_writes s dr (pcRelative s off)⟩

/-- Settles O30: both are the store of `memWrite_stores`, at their own effective address. -/
theorem stAndStrResults : Obligations.StAndStrResults := by
  refine ⟨fun sr off s => ⟨_, rfl, ?_, rfl⟩, fun sr base off s => ⟨_, rfl, ?_, rfl⟩⟩
  · rw [← pcRelative_eq (by decide)]
    exact memWrite_stores s (pcRelative s off) (s.reg sr)
  · rw [← baseOffset_eq]
    exact memWrite_stores s (baseOffset s base off) (s.reg sr)

/-- Settles O31: a MemRead, then a store into the memory it leaves; the read writes no register. -/
theorem stiResult : Obligations.StiResult := by
  intro sr off s
  rw [← pcRelative_eq (by decide)]
  refine ⟨_, _, _, rfl, memRead_readsWord s (pcRelative s off), load_store_same _ _ _, store_keepsCells _ _ _, ?_⟩
  simp

/-- What a store leaves: the word of its register at its address. -/
theorem exec_store_eq {i : Instr} {s t : State} {a : Word} {r : Reg} (hexec : exec i s = .next t)
    (haddr : storeAddress i s = some a) (hsource : storeSource i = some r) : ∃ u : State, t = u.memWrite a (s.reg r) := by
  cases i with
  | st | str | sti => cases hexec; cases haddr; cases hsource; exact ⟨_, rfl⟩
  | _ => cases hsource

/-- Settles O12: the fetch away from KBSR is a plain load, and loads what was stored. -/
theorem storeIsSeenByTheFetch : Obligations.StoreIsSeenByTheFetch := by
  intro i s t a r hexec haddr hsource hne
  obtain ⟨u, rfl⟩ := exec_store_eq hexec haddr hsource
  rw [fetch_plain _ hne]
  exact load_store_same u.mem a (s.reg r)

end Sys2Proof.Proofs
end

section
/-! PROOFS of the family 40_dispatch.md: the step (R110 to R118), and what it does on zero and placed words
(70_reset_and_hazards.md R283, R284). -/

namespace Sys2Proof.Proofs

open Sys2Proof.Machine Sys2Proof.Laws

/-- Away from KBSR a step executes the word at the PC, on the host's move with the PC incremented. -/
theorem step_plain {s : State} (hrun : s.status = .running) (hwait : s.inWait = false) (hpc : s.pc ≠ kbsr) :
    step s = exec (decode (s.mem.load s.pc)) (s.hostMove.setPc (s.pc + 1)) := by
  have hpc' : s.hostMove.pc ≠ kbsr := by rwa [hostMove_pc]
  rw [step_of_ready hrun hwait, fetch_plain s.hostMove hpc', hostMove_mem, hostMove_pc]

/-- Settles O14: `step_of_ready`, and away from KBSR `step_plain`. -/
theorem stepRunsTheDecodedInstruction : Obligations.StepRunsTheDecodedInstruction :=
  fun _ hrun hwait => ⟨step_of_ready hrun hwait, step_plain hrun hwait⟩

/-- Settles O17: the zero word is a BR with no condition bit set, which is never taken. -/
theorem zeroWordOnlyAdvancesThePc : Obligations.ZeroWordOnlyAdvancesThePc := by
  intro s hrun hwait hpc hword
  have hdecode : decode 0 = .br false false false 0 := by decide
  rw [step_plain hrun hwait hpc, hword, hdecode]
  refine congrArg Host.Outcome.next (if_neg ?_)
  simp [branchTaken]

/-! ## When a step is taken (R110, R118) -/

/-- Every instruction answers a next state. -/
theorem exec_next (i : Instr) (s : State) : ∃ t, exec i s = .next t := by
  cases i <;> exact ⟨_, rfl⟩

/-- A running machine takes a step. -/
theorem step_next_of_running {s : State} (hrun : s.status = .running) : ∃ t, step s = .next t := by
  cases hwait : s.inWait with
  | true => exact ⟨_, step_of_blocked hrun hwait⟩
  | false => rw [step_of_ready hrun hwait]; exact exec_next _ _

/-- A halted machine stops under that name. -/
theorem step_of_halted {s : State} (h : s.status = .halted) : step s = .fault .runHalted := by
  simp [step, h]

/-- An aborted machine stops under the reason and address of its abort. -/
theorem step_of_aborted {s : State} {reason : AbortReason} {ia : Word} (h : s.status = .aborted reason ia) :
    step s = .fault (.runAborted reason ia) := by
  simp [step, h]

/-- Settles O16: the three statuses answer outcomes that no two share. -/
theorem stepExactlyWhileRunning : Obligations.StepExactlyWhileRunning := by
  intro s
  cases h : s.status with
  | running =>
    obtain ⟨t, ht⟩ := step_next_of_running h
    simp [ht]
  | halted => simp [step_of_halted h]
  | aborted reason ia => simp [step_of_aborted h]

/-! ## A placed instruction (R284, log entry 7) -/

/-- An instruction is never placed at KBSR. -/
theorem fetchPlace_ne_kbsr (s : State) : s.fetchPlace ≠ kbsr := by
  unfold State.fetchPlace
  split
  · decide
  · assumption

/-- Settles O15: the placed word is not at KBSR, so `step_plain` runs it. -/
theorem placedInstructionRunsNext : Obligations.PlacedInstructionRunsNext := by
  intro s nbits w
  have hstep := step_plain (s := s.withFetchWord nbits w) rfl rfl (fetchPlace_ne_kbsr s)
  have hword : (s.withFetchWord nbits w).mem.load (s.withFetchWord nbits w).pc = tableWord nbits w :=
    load_store_same s.mem s.fetchPlace (tableWord nbits w)
  rw [hword] at hstep
  refine ⟨_, hstep, rfl, fun hpc => if_neg hpc, ?_, ?_, ?_, ?_, ?cells, ?_, ?_⟩
  case cells => simpa [State.withFetchWord] using store_keepsCells s.mem s.fetchPlace (tableWord nbits w)
  all_goals simp [State.withFetchWord, tableWord, hostMove_inq, hostMove_script]

end Sys2Proof.Proofs
end

section
/-! PROOFS of the family 44_trap.md: the service routines (R203 to R208), undefined vectors (R209, R212), and the string
faults (R213, R214). -/

namespace Sys2Proof.Proofs

open Sys2Proof.Machine Sys2Proof.Laws

/-! ## What a trap writes -/

/-- The link and the bytes of a routine, with the status and the blocked bit it leaves. -/
theorem link_emit_trapWrites (s : State) (bytes : List Byte) (status : Status) (blocked : Bool) :
    TrapWrites s { s.link.emit bytes with status := status, inWait := blocked } bytes status blocked := by
  obtain ⟨hlink, hregs, hout, -, hpc, hcond, hmem, hinq, -, hscript⟩ := link_emit_writes s bytes
  exact ⟨hlink, hregs, hout, rfl, hpc, hcond, hmem, hinq, rfl, hscript⟩

/-- The link alone, with the status it leaves. -/
theorem link_trapWrites (s : State) (status : Status) :
    TrapWrites s { s.link with status := status } [] status s.inWait := by
  have h := link_emit_trapWrites s [] status s.inWait
  rwa [State.emit, List.append_nil] at h

/-- Bytes written one after the other are written in one. -/
theorem emit_emit (s : State) (bs bs' : List Byte) : (s.emit bs).emit bs' = s.emit (bs ++ bs') :=
  congrArg (fun o => { s with out := o }) (List.append_assoc s.out bs bs')

/-- A routine that takes a byte after what it writes. -/
theorem takeByte_trapReads {s u : State} {bytes : List Byte} {blocked : Bool}
    (hu : TrapWrites s u bytes s.status blocked) (b : Byte) (rest : List Byte) :
    TrapReads s (u.takeByte b rest).trapReturn b rest bytes blocked := by
  obtain ⟨hlink, hregs, hout, hstatus, hpc, -, hmem, -, hwait, hscript⟩ := hu
  refine ⟨toNat_zext b, flagOf_condOf (zext b), hlink, fun r hr => ?_, rfl, hout, hpc, hmem, hstatus, hwait, hscript⟩
  obtain ⟨h0, h7⟩ : r ≠ .r0 ∧ r ≠ .r7 := by simpa using hr
  simpa [h0] using hregs r (by simpa using h7)

/-! ## The dispatch (R202, R209, R212) -/

/-- An undefined vector links R7, and goes on or aborts as UNKNOWN_TRAP says. -/
theorem undefinedTrap_writes (policy : UnknownTrap) (vect : BitVec 8) (s : State) :
    TrapWrites s (undefinedTrap policy vect s) []
      (match policy with
        | .noop => s.status
        | .fault => .aborted (.unknownTrap vect) (s.pc - 1)) s.inWait := by
  cases policy with
  | noop => exact link_trapWrites s s.status
  | fault => exact link_trapWrites s (.aborted (.unknownTrap vect) (s.pc - 1))

/-- Settles O32: the dispatch of such a vector is `undefinedTrap`, and `undefinedTrap_writes` covers both policies. -/
theorem undefinedTrapResult : Obligations.UndefinedTrapResult := by
  intro vect s hvect
  refine ⟨trapDispatch vect s, rfl, ?_⟩
  rw [trapDispatch_undefined hvect]
  exact undefinedTrap_writes Config.unknownTrap vect s

/-- Settles O33: for each of the six vectors the dispatch computes to the routine of the vector's own constructor. -/
theorem trapVectorsSelectTheirRoutines : Obligations.TrapVectorsSelectTheirRoutines :=
  fun _ => ⟨rfl, rfl, rfl, rfl, rfl, rfl⟩

/-! ## GETC, IN and HALT (R203, R206, R208) -/

/-- GETC with a byte links, then takes the byte. -/
theorem serviceGetc_reads {s : State} {b : Byte} {rest : List Byte} (hq : s.inq = b :: rest) :
    TrapReads s (serviceGetc s) b rest [] s.inWait := by
  rw [serviceGetc_byte hq]
  exact takeByte_trapReads (link_trapWrites s s.status) b rest

/-- IN with a byte links, writes the prompt and the echo, then takes the byte. -/
theorem serviceIn_reads {s : State} {b : Byte} {rest : List Byte} (hq : s.inq = b :: rest) :
    TrapReads s (serviceIn s) b rest (Config.inPrompt ++ [b]) false := by
  have hecho : ((s.link.emit Config.inPrompt).setInWait false).emit [b] =
      (s.link.emit (Config.inPrompt ++ [b])).setInWait false :=
    congrArg (State.setInWait · false) (emit_emit s.link Config.inPrompt [b])
  rw [serviceIn_byte hq, hecho]
  exact takeByte_trapReads (link_emit_trapWrites s (Config.inPrompt ++ [b]) s.status false) b rest

/-- IN with no byte links, writes the prompt and is blocked. -/
theorem serviceIn_writes {s : State} (hq : s.inq = []) :
    TrapWrites s (serviceIn s) Config.inPrompt s.status true := by
  rw [serviceIn_empty hq]
  exact link_emit_trapWrites s Config.inPrompt s.status true

/-- HALT links, writes its notice and ends the run. -/
theorem serviceHalt_writes (s : State) : TrapWrites s (serviceHalt s) Config.haltNotice .halted s.inWait :=
  link_emit_trapWrites s Config.haltNotice .halted s.inWait

/-- Settles O34: `serviceGetc_reads`. -/
theorem getcResult : Obligations.GetcResult :=
  fun s _ _ hq => ⟨serviceGetc s, rfl, serviceGetc_reads hq⟩

/-- Settles O40: `serviceIn_reads`. -/
theorem inResult : Obligations.InResult :=
  fun s _ _ hq => ⟨serviceIn s, rfl, serviceIn_reads hq⟩

/-- Settles O41: `serviceIn_writes`. -/
theorem inWaitsAfterItsPrompt : Obligations.InWaitsAfterItsPrompt :=
  fun s hq => ⟨serviceIn s, rfl, serviceIn_writes hq⟩

/-- Settles O43: `serviceHalt_writes`, the notice being the two free strings with HALT between them. -/
theorem haltResult : Obligations.HaltResult :=
  ⟨Config.haltNoticeBefore, Config.haltNoticeAfter, fun s => ⟨serviceHalt s, rfl, serviceHalt_writes s⟩⟩

/-! ## Strings (R205, R207, R213, R214) -/

/-- What a string routine writes: the bytes of the walk, and the fault if it ends in one. -/
theorem printString_writes {emitWord : Word → List Byte} {s : State} {bytes : List Byte} {fault : Option AbortReason}
    (hwalk : stringAt s.mem emitWord (s.reg .r0) = (bytes, fault)) :
    TrapWrites s (printString emitWord s) bytes
      (match fault with
        | none => s.status
        | some reason => .aborted reason (s.pc - 1)) s.inWait := by
  have hbytes : bytes = (stringAt s.mem emitWord (s.reg .r0)).1 := by rw [hwalk]
  have hfault : (stringAt s.mem emitWord (s.reg .r0)).2 = fault := by rw [hwalk]
  subst hbytes
  cases fault with
  | none => rw [printString_of_none hfault]; exact link_emit_writes s _
  | some e => rw [printString_of_some hfault]; exact link_emit_raise_writes s _ e

/-- The low byte in plain arithmetic. -/
theorem lowByte_eq_ofNat (w : Word) : lowByte w = BitVec.ofNat 8 w.toNat := by
  rw [lowByte_eq_ofNat_mod]
  exact BitVec.eq_of_toNat_eq (by simp)

/-- The high byte in plain arithmetic. -/
theorem highByte_eq_ofNat (w : Word) : highByte w = BitVec.ofNat 8 (w.toNat / 256) := by
  apply BitVec.eq_of_toNat_eq
  simp [highByte, Nat.shiftRight_eq_div_pow]

/-- A word whose high byte is zero. -/
theorem highByte_eq_zero_iff (w : Word) : highByte w = 0x00#8 ↔ w.toNat / 256 = 0 := by
  have hlt : w.toNat / 256 < 256 := Nat.div_lt_of_lt_mul w.isLt
  rw [highByte_eq_ofNat, ← BitVec.toNat_inj, BitVec.toNat_ofNat, Nat.mod_eq_of_lt hlt]
  rfl

/-- The bytes PUTS writes for the words of a string. -/
theorem flatMap_putsBytes (ws : List Word) : ws.flatMap putsBytes = putsString ws := by
  unfold putsString
  rw [List.map_eq_flatMap]
  exact congrArg ws.flatMap (funext fun w => by rw [putsBytes, lowByte_eq_ofNat])

/-- The bytes PUTSP writes for the words of a string. -/
theorem flatMap_putspBytes (ws : List Word) : ws.flatMap putspBytes = putspString ws := by
  refine congrArg ws.flatMap (funext fun w => ?_)
  rw [putspBytes, lowByte_eq_ofNat, ← highByte_eq_ofNat]
  simp only [highByte_eq_zero_iff]
  split <;> rfl

section Walks

variable {m : Memory} {a : Word} {ws : List Word} (hws : StringWords m a.toNat ws) (emitWord : Word → List Byte)
include hws

/-- The walk up to the end of the words. -/
theorem stringAt_append (hlt : a.toNat + ws.length < 65536) :
    stringAt m emitWord a =
      (ws.flatMap emitWord ++ (stringAt m emitWord (BitVec.ofNat 16 (a.toNat + ws.length))).1,
        (stringAt m emitWord (BitVec.ofNat 16 (a.toNat + ws.length))).2) := by
  have h := stringAt_words m emitWord ws a.toNat hws hlt
  rwa [BitVec.ofNat_toNat, BitVec.setWidth_eq] at h

/-- The walk of a string that ends in a zero word. -/
theorem stringAt_of_end (hlt : a.toNat + ws.length < 65536) (hne : a.toNat + ws.length ≠ 0xFE00)
    (hend : m.load (BitVec.ofNat 16 (a.toNat + ws.length)) = 0) :
    stringAt m emitWord a = (ws.flatMap emitWord, none) := by
  have hkbsr : BitVec.ofNat 16 (a.toNat + ws.length) ≠ kbsr := fun e => hne <| by
    have h := congrArg BitVec.toNat e
    rwa [BitVec.toNat_ofNat, Nat.mod_eq_of_lt hlt] at h
  rw [stringAt_append hws emitWord hlt, stringAt_eq, if_neg hkbsr, if_pos hend, List.append_nil]

/-- The walk of a string that reaches KBSR. -/
theorem stringAt_of_kbsr (hend : a.toNat + ws.length = 0xFE00) :
    stringAt m emitWord a = (ws.flatMap emitWord, some (.trapStringAtKBSR 0xFE00)) := by
  rw [stringAt_append hws emitWord (by omega), hend, stringAt_eq]
  exact Prod.ext (List.append_nil _) rfl

end Walks

/-- The walk from a non-zero word at the top of memory. -/
theorem stringAt_top {m : Memory} (emitWord : Word → List Byte) (h : m.load 0xFFFF ≠ 0) :
    stringAt m emitWord 0xFFFF = (emitWord (m.load 0xFFFF), some (.trapStringWrap 0xFFFF)) := by
  rw [stringAt_eq, if_neg (by decide), if_neg h, if_pos rfl]

/-- The walk of a string that does not end by the top of memory. -/
theorem stringAt_of_top {m : Memory} {a : Word} {ws : List Word} (hws : StringWords m a.toNat ws)
    (emitWord : Word → List Byte) (hend : a.toNat + ws.length = 65536) :
    stringAt m emitWord a = (ws.flatMap emitWord, some (.trapStringWrap 0xFFFF)) := by
  obtain rfl | ⟨init, last, rfl⟩ := ws.eq_nil_or_concat'
  · exact absurd hend a.isLt.ne
  · rw [List.length_append, List.length_singleton] at hend
    have hinit : StringWords m a.toNat init := fun j hj => by
      have h := hws j (by simp; omega)
      rwa [List.getElem_append_left hj] at h
    obtain ⟨-, -, hload, hne⟩ := hws init.length (by simp)
    have hlast : BitVec.ofNat 16 (a.toNat + init.length) = 0xFFFF := by
      rw [show a.toNat + init.length = 65535 by omega]; rfl
    have hload : m.load 0xFFFF = last := by simpa [hlast] using hload
    have hne : last ≠ 0 := by simpa using hne
    rw [stringAt_append hinit emitWord (by omega), hlast, stringAt_top emitWord (hload.trans_ne hne), hload]
    simp

/-- Settles O37: the walk ends at the zero word (`stringAt_of_end`), so the routine returns. -/
theorem putsResult : Obligations.PutsResult := by
  intro s ws hws hlt hne hend
  refine ⟨servicePuts s, rfl, ?_⟩
  rw [← flatMap_putsBytes]
  exact printString_writes (stringAt_of_end hws putsBytes hlt hne hend)

/-- Settles O38: as O37, with the bytes of PUTSP. -/
theorem putspResult : Obligations.PutspResult := by
  intro s ws hws hlt hne hend
  refine ⟨servicePutsp s, rfl, ?_⟩
  rw [← flatMap_putspBytes]
  exact printString_writes (stringAt_of_end hws putspBytes hlt hne hend)

/-- Settles O39: the walk ends in the fault at KBSR (`stringAt_of_kbsr`) or at the top (`stringAt_of_top`). -/
theorem unendedStringsAbort : Obligations.UnendedStringsAbort := by
  intro s ws hws
  rw [← flatMap_putsBytes, ← flatMap_putspBytes]
  exact ⟨fun hend => ⟨⟨servicePuts s, rfl, printString_writes (stringAt_of_kbsr hws putsBytes hend)⟩,
      ⟨servicePutsp s, rfl, printString_writes (stringAt_of_kbsr hws putspBytes hend)⟩⟩,
    fun hend => ⟨⟨servicePuts s, rfl, printString_writes (stringAt_of_top hws putsBytes hend)⟩,
      ⟨servicePutsp s, rfl, printString_writes (stringAt_of_top hws putspBytes hend)⟩⟩⟩

/-! ## Waiting for a byte (R211, 40_dispatch.md R118) -/

/-- A step not taken puts the PC back to where the fetch found it. -/
theorem notTaken_setPc (s : State) : (s.setPc (s.pc + 1)).notTaken = s :=
  congrArg s.setPc (BitVec.add_sub_cancel s.pc 1)

/-- Setting the blocked bit to what it is changes nothing. -/
theorem setInWait_self {s : State} {b : Bool} (h : s.inWait = b) : s.setInWait b = s := by
  subst h; rfl

/-- Settles O35: the fetch only moves the PC (`step_plain`), and GETC moves it back. -/
theorem getcWaitsForTheHost : Obligations.GetcWaitsForTheHost := by
  intro s hrun hwait hpc hdecode hq
  rw [step_plain hrun hwait hpc, hdecode, ← hostMove_pc]
  have hq' : (s.hostMove.setPc (s.hostMove.pc + 1)).inq = [] := hq
  exact congrArg Host.Outcome.next ((serviceGetc_empty hq').trans (notTaken_setPc s.hostMove))

/-- Settles O42: IN reads on from the state after the host's move, with no byte (`inRead_empty`) or with one
(`inRead_byte`). -/
theorem blockedInResumes : Obligations.BlockedInResumes := by
  intro s hrun hwait
  rw [step_of_blocked hrun hwait]
  refine ⟨fun hq => ?_, fun b rest hq => ⟨_, rfl, ?_⟩⟩
  · rw [inRead_empty hq, setInWait_self (by simpa using hwait)]
  · rw [inRead_byte hq]
    refine ⟨toNat_zext b, flagOf_condOf (zext b), fun r hr => ?_, ?_⟩
    · have h0 : r ≠ .r0 := by simpa using hr
      simp [h0]
    · simp [hostMove_script, hrun]

end Sys2Proof.Proofs
end

section
/-! PROOFS of the family 45_reserved.md: RTI and RES (R240 to R242). -/

namespace Sys2Proof.Proofs

open Sys2Proof.Machine Sys2Proof.Laws

/-- A word's opcode, from its number. -/
theorem opcode_of_div {w : Word} {c : Nat} (hc : c < 16) (h : w.toNat / 4096 = c) : field w 12 4 = BitVec.ofNat 4 c := by
  have hdiv : w.toNat / 2 ^ 12 % 2 ^ 4 = c := by omega
  rw [field_eq_ofNat, hdiv]

/-- Settles O44: both meanings raise the fault, and after the fetch the PC less 1 is where the instruction was fetched. -/
theorem reservedOpcodesAbort : Obligations.ReservedOpcodesAbort := by
  refine ⟨fun _ => rfl, fun _ => rfl, fun s w t hrun hwait hfetch hop => ?_⟩
  have haddr : t.instrAddr = s.pc := by
    have h := fetch_instrAddr s.hostMove
    rwa [hfetch, hostMove_pc] at h
  rw [step_of_ready hrun hwait, hfetch, ← haddr]
  obtain hop | hop := hop
  · rw [(Decodes.rti (opcode_of_div (by decide) hop)).decode_eq, hop]; rfl
  · rw [(Decodes.res (opcode_of_div (by decide) hop)).decode_eq, hop]; rfl

end Sys2Proof.Proofs
end

section
/-! PROOFS of the family 10_state.md: which instructions write the registers (R22) and the PC (R24), and which memory
(20_memory.md R59, R60). -/

namespace Sys2Proof.Proofs

open Sys2Proof.Machine Sys2Proof.Laws

/-! ## The general registers (R22) -/

/-- A state with the same register file keeps every register. -/
theorem keepsRegs_of_regs_eq {s t : State} (h : t.regs = s.regs) (rs : List Reg) : KeepsRegsBut rs s t :=
  fun r _ => congrArg (RegFile.get · r) h

/-- What is kept but for some registers is kept but for more. -/
theorem keepsRegs_mono {rs rs' : List Reg} {s t : State} (h : KeepsRegsBut rs s t) (hsub : rs ⊆ rs') :
    KeepsRegsBut rs' s t :=
  fun r hr => h r fun hmem => hr (hsub hmem)

/-- A flagged write on a state with the registers of `s` changes its own register only. -/
theorem writeFlagged_keepsRegs {s u : State} (hu : u.regs = s.regs) (dr : Reg) (v : Word) :
    KeepsRegsBut [dr] s (u.writeFlagged dr v) := fun r hr => by
  have hne : r ≠ dr := by simpa using hr
  simp [hne, reg_eq, hu]

/-- A trap that only writes bytes changes R7 only. -/
theorem keepsRegs_of_trapWrites {s t : State} {bytes : List Byte} {status : Status} {blocked : Bool}
    (h : TrapWrites s t bytes status blocked) : KeepsRegsBut [.r7] s t := by
  obtain ⟨-, hregs, -⟩ := h
  exact hregs

/-- A trap that takes a byte changes R0 and R7 only. -/
theorem keepsRegs_of_trapReads {s t : State} {b : Byte} {rest bytes : List Byte} {blocked : Bool}
    (h : TrapReads s t b rest bytes blocked) : KeepsRegsBut [.r0, .r7] s t := by
  obtain ⟨-, -, -, hregs, -⟩ := h
  exact hregs

/-- A call changes R7 only, besides the PC. -/
theorem keepsRegs_of_links {s t : State} {target : Word} (h : Links s t target) : KeepsRegsBut [.r7] s t := by
  obtain ⟨-, hregs, -⟩ := h
  exact hregs

/-- TRAP with an undefined vector, OUT, PUTS, PUTSP and HALT only write bytes and may end the run. -/
theorem exec_trapWrites {i : Instr} {s t : State} (hwf : i.wf = true) (hexec : exec i s = .next t)
    (hnone : flagTarget i = none) (hregs : writableRegs i = [.r7]) (hpc : transfersControl i = false) :
    ∃ bytes status, TrapWrites s t bytes status s.inWait := by
  cases i with
  | trap vect => cases hexec; rw [trapDispatch_of_wf hwf]; exact ⟨_, _, undefinedTrap_writes Config.unknownTrap vect s⟩
  | out => cases hexec; exact ⟨_, _, link_emit_writes s _⟩
  | halt => cases hexec; exact ⟨_, _, serviceHalt_writes s⟩
  | puts => cases hexec; exact ⟨_, _, printString_writes (emitWord := putsBytes) rfl⟩
  | putsp => cases hexec; exact ⟨_, _, printString_writes (emitWord := putspBytes) rfl⟩
  | jsr | jsrr => cases hpc
  | br | st | str | rti | sti | jmp | res => cases hregs
  | _ => cases hnone

/-- BR moves the PC at most. -/
theorem exec_br_movesPc {n z p : Bool} {off : BitVec 9} {s t : State} (hexec : exec (.br n z p off) s = .next t) :
    ∃ target, MovesPc s t target := by
  rw [exec_br_eq] at hexec
  cases hexec
  exact ⟨_, setPc_movesPc s _⟩

/-- Settles O46: by the kind of instruction: a flagged write, a write of no register, a call, or a trap. -/
theorem registersAreWrittenByTheListedInstructionsOnly : Obligations.RegistersAreWrittenByTheListedInstructionsOnly := by
  intro i s t hwf hexec
  cases i with
  | addReg | addImm | andReg | andImm | not | lea => cases hexec; exact writeFlagged_keepsRegs rfl _ _
  | ld | ldi | ldr => cases hexec; exact writeFlagged_keepsRegs (by simp) _ _
  | br =>
    obtain ⟨_, -, hregs, -⟩ := exec_br_movesPc hexec
    exact keepsRegs_of_regs_eq hregs _
  | st | str | sti | rti | jmp | res => cases hexec; exact keepsRegs_of_regs_eq (by simp) _
  | jsr off => cases hexec; exact keepsRegs_of_links (link_setPc_links s _)
  | jsrr base => cases hexec; exact keepsRegs_of_links (jsrrCall_links _ base s)
  | trap | out | puts | putsp | halt =>
    obtain ⟨_, _, htrap⟩ := exec_trapWrites hwf hexec rfl rfl rfl
    exact keepsRegs_of_trapWrites htrap
  | getc =>
    cases hexec
    cases hq : s.inq with
    | nil => rw [serviceGetc_empty hq]; exact keepsRegs_of_regs_eq rfl _
    | cons b rest => exact keepsRegs_of_trapReads (serviceGetc_reads hq)
  | inChar =>
    cases hexec
    cases hq : s.inq with
    | nil => exact keepsRegs_mono (keepsRegs_of_trapWrites (serviceIn_writes hq)) (List.subset_cons_self _ _)
    | cons b rest => exact keepsRegs_of_trapReads (serviceIn_reads hq)

/-! ## The PC (R24) -/

/-- Settles O48: no other instruction writes the PC but a GETC that is not taken, which the hypothesis excludes. -/
theorem pcIsWrittenByControlTransfersOnly : Obligations.PcIsWrittenByControlTransfersOnly := by
  intro i s t hwf hexec hcontrol hbyte
  cases i with
  | br | jmp | jsr | jsrr => cases hcontrol
  | addReg | addImm | andReg | andImm | not | lea | st | str | rti | res => cases hexec; rfl
  | ld | ldr | ldi => cases hexec; simp [loadTo]
  | sti => cases hexec; simp
  | trap | out | puts | putsp | halt =>
    obtain ⟨_, _, -, -, -, -, hpc, -⟩ := exec_trapWrites hwf hexec rfl rfl rfl
    exact hpc
  | getc =>
    cases hexec
    obtain ⟨b, rest, hq⟩ := List.exists_cons_of_ne_nil (hbyte rfl)
    rw [serviceGetc_byte hq]; rfl
  | inChar =>
    cases hexec
    cases hq : s.inq with
    | nil => rw [serviceIn_empty hq]; rfl
    | cons b rest => rw [serviceIn_byte hq]; rfl

/-! ## Memory (20_memory.md R59, R60) -/

/-- GETC keeps memory. -/
theorem serviceGetc_mem (s : State) : (serviceGetc s).mem = s.mem := by
  unfold serviceGetc; split <;> rfl

/-- IN's read keeps memory. -/
theorem inRead_mem (s : State) : (inRead s).mem = s.mem := by
  unfold inRead; split <;> rfl

/-- IN keeps memory. -/
theorem serviceIn_mem (s : State) : (serviceIn s).mem = s.mem := inRead_mem (s.link.emit Config.inPrompt)

/-- A string routine keeps memory. -/
theorem printString_mem (emitWord : Word → List Byte) (s : State) : (printString emitWord s).mem = s.mem := by
  obtain ⟨-, -, -, -, -, -, hmem, -⟩ := printString_writes (emitWord := emitWord) (s := s) rfl
  exact hmem

/-- A TRAP keeps memory, whatever its vector. -/
theorem trapDispatch_mem (vect : BitVec 8) (s : State) : (trapDispatch vect s).mem = s.mem := by
  unfold trapDispatch
  split
  exacts [serviceGetc_mem s, rfl, printString_mem putsBytes s, serviceIn_mem s, printString_mem putspBytes s, rfl,
    by cases Config.unknownTrap <;> rfl]

/-- The state that an instruction's MemReads leave. -/
def afterReads (i : Instr) (s : State) : State := (memReads i s).foldl (fun u a => (u.memRead a).2) s

/-- Memory after an instruction is what its MemReads leave, but for the word it stores. -/
theorem exec_mem {i : Instr} {s t : State} (hexec : exec i s = .next t) :
    t.mem = (afterReads i s).mem ∨ ∃ a v, storeAddress i s = some a ∧ t.mem = (afterReads i s).mem.store a v := by
  cases i with
  | st | str | sti => cases hexec; exact .inr ⟨_, _, rfl, rfl⟩
  | addReg | addImm | andReg | andImm | not | lea | ld | ldr | ldi | jmp | jsr | rti | res | out | halt =>
    cases hexec; exact .inl rfl
  | br =>
    obtain ⟨_, -, -, -, hmem, -⟩ := exec_br_movesPc hexec
    exact .inl hmem
  | jsrr base =>
    cases hexec
    obtain ⟨-, -, -, -, hmem, -⟩ := jsrrCall_links Config.jsrrBaseRead base s
    exact .inl hmem
  | trap vect => cases hexec; exact .inl (trapDispatch_mem vect s)
  | getc => cases hexec; exact .inl (serviceGetc_mem s)
  | inChar => cases hexec; exact .inl (serviceIn_mem s)
  | puts => cases hexec; exact .inl (printString_mem putsBytes s)
  | putsp => cases hexec; exact .inl (printString_mem putspBytes s)

/-- MemReads change no cell but those of KBSR and KBDR, and only by a read of KBSR. -/
theorem readByte_memReads {as : List Word} {s : State} {k : Nat}
    (h : (as.foldl (fun u a => (u.memRead a).2) s).mem.readByte k ≠ s.mem.readByte k) :
    0xFE00#16 ∈ as ∧ (k / 2 = 0xFE00 ∨ k / 2 = 0xFE02) := by
  induction as generalizing s with
  | nil => exact absurd rfl h
  | cons a as ih =>
    by_cases hread : (s.memRead a).2.mem.readByte k = s.mem.readByte k
    · obtain ⟨hmem, hk⟩ := ih (s := (s.memRead a).2) (hread ▸ h)
      exact ⟨List.mem_cons_of_mem a hmem, hk⟩
    · constructor
      · by_contra hne
        have : a ≠ kbsr := by rintro rfl; exact hne (List.mem_cons_self ..)
        exact hread (by rw [memRead_plain s this])
      · by_contra hk
        exact hread (readByte_memRead s a (by rintro h; exact hk (.inl h)) (by rintro h; exact hk (.inr h)))

/-- Settles O47: a store changes its own word only, and MemReads what `readByte_memReads` says. -/
theorem memoryChangesOnlyByStoresAndPolls : Obligations.MemoryChangesOnlyByStoresAndPolls := by
  intro i s t k hexec hne
  obtain hmem | ⟨a, v, haddr, hmem⟩ := exec_mem hexec <;> rw [hmem] at hne
  · exact .inr (readByte_memReads hne)
  · by_cases hk : k / 2 = a.toNat
    · exact .inl ⟨a, haddr, hk⟩
    · rw [readByte_store_other _ a v hk] at hne
      exact .inr (readByte_memReads hne)

end Sys2Proof.Proofs
end

section
/-! PROOFS of the families 60_exceptions.md and 10_state.md: how a run ends (R32, R250), the console (R33), the invariant,
and reset (R35). -/

namespace Sys2Proof.Proofs

open Sys2Proof.Machine Sys2Proof.Laws

/-! ## How a run ends (R32, 60_exceptions.md R250) -/

/-- The faults of a string's walk: at KBSR, or past the top of memory. -/
theorem stringWalk_fault {m : Memory} {emitWord : Word → List Byte} {reason : AbortReason} (above : Nat) :
    ∀ {a : Word}, a.toNat + above = 65535 → (stringWalk m emitWord above a).2 = some reason →
      reason = .trapStringAtKBSR 0xFE00 ∨ reason = .trapStringWrap 0xFFFF := by
  induction above with
  | zero =>
    intro a ha h
    obtain rfl : a = 0xFFFF := BitVec.eq_of_toNat_eq ha
    unfold stringWalk at h
    split at h
    · next hkbsr => exact absurd hkbsr (by decide)
    · split at h
      · cases h
      · exact .inr (Option.some.inj h).symm
  | succ k ih =>
    intro a ha h
    have hnext : (a + 1).toNat + k = 65535 := by
      have hone : (1 : Word).toNat = 1 := rfl
      rw [BitVec.toNat_add, hone]; omega
    unfold stringWalk at h
    split at h
    · next hkbsr => rw [hkbsr] at h; exact .inl (Option.some.inj h).symm
    · split at h
      · cases h
      · exact ih hnext h

/-- The faults of PUTS and PUTSP. -/
theorem stringAt_fault {m : Memory} {emitWord : Word → List Byte} {a : Word} {reason : AbortReason}
    (h : (stringAt m emitWord a).2 = some reason) :
    reason = .trapStringAtKBSR 0xFE00 ∨ reason = .trapStringWrap 0xFFFF :=
  stringWalk_fault (0xFFFF - a.toNat) (by have := a.isLt; omega) h

/-- The status after a string routine: as before, or aborted by a fault of the walk. -/
theorem printString_status (emitWord : Word → List Byte) (s : State) :
    (printString emitWord s).status = s.status ∨
      ∃ reason, (reason = .trapStringAtKBSR 0xFE00 ∨ reason = .trapStringWrap 0xFFFF) ∧
        (printString emitWord s).status = .aborted reason s.instrAddr := by
  obtain ⟨-, hprint⟩ | ⟨reason, hend, hprint⟩ := printString_cases emitWord s <;> rw [hprint]
  · exact .inl rfl
  · exact .inr ⟨reason, stringAt_fault hend, rfl⟩

/-- `i` is an instruction that raises `reason` (R250). -/
def Raises (i : Instr) (reason : AbortReason) : Prop :=
  (reason = .reservedOpcode 0x8 ∧ i = .rti) ∨ (reason = .reservedOpcode 0xD ∧ i = .res) ∨
  (∃ v, reason = .unknownTrap v ∧ i = .trap v ∧ Config.unknownTrap = .fault) ∨
  ((reason = .trapStringAtKBSR 0xFE00 ∨ reason = .trapStringWrap 0xFFFF) ∧ (i = .puts ∨ i = .putsp))

/-- The status after an instruction: as before, HALTED by HALT, or ABORTED by a fault of the instruction. -/
theorem exec_status {i : Instr} {s t : State} (hwf : i.wf = true) (hexec : exec i s = .next t) :
    t.status = s.status ∨ (i = .halt ∧ t.status = .halted) ∨
      ∃ reason, Raises i reason ∧ t.status = .aborted reason s.instrAddr := by
  cases i with
  | addReg | addImm | andReg | andImm | not | lea | st | str | jmp | jsr | out => cases hexec; exact .inl rfl
  | ld | ldr | ldi => cases hexec; left; simp [loadTo]
  | sti => cases hexec; left; simp
  | br =>
    obtain ⟨_, -, -, -, -, hstatus, -⟩ := exec_br_movesPc hexec
    exact .inl hstatus
  | jsrr base =>
    cases hexec
    obtain ⟨-, -, -, -, -, hstatus, -⟩ := jsrrCall_links Config.jsrrBaseRead base s
    exact .inl hstatus
  | getc =>
    cases hexec; left
    unfold serviceGetc; split <;> rfl
  | inChar => cases hexec; exact .inl (inRead_status _)
  | halt => cases hexec; exact .inr (.inl ⟨rfl, rfl⟩)
  | rti => cases hexec; exact .inr (.inr ⟨_, .inl ⟨rfl, rfl⟩, rfl⟩)
  | res => cases hexec; exact .inr (.inr ⟨_, .inr (.inl ⟨rfl, rfl⟩), rfl⟩)
  | trap vect =>
    cases hexec
    rw [trapDispatch_of_wf hwf]
    cases hpolicy : Config.unknownTrap with
    | noop => exact .inl rfl
    | fault => exact .inr (.inr ⟨_, .inr (.inr (.inl ⟨vect, rfl, rfl, hpolicy⟩)), rfl⟩)
  | puts =>
    cases hexec
    exact (printString_status putsBytes s).imp_right fun ⟨reason, hfault, hstatus⟩ =>
      .inr ⟨reason, .inr (.inr (.inr ⟨hfault, .inl rfl⟩)), hstatus⟩
  | putsp =>
    cases hexec
    exact (printString_status putspBytes s).imp_right fun ⟨reason, hfault, hstatus⟩ =>
      .inr ⟨reason, .inr (.inr (.inr ⟨hfault, .inr rfl⟩)), hstatus⟩

/-- The status after a step: RUNNING, or the end that the fetched instruction makes of the run, if IN was not blocked. -/
theorem step_status {s t : State} (hstep : step s = .next t) :
    t.status = .running ∨ (s.inWait = false ∧
      ((decode s.hostMove.fetch.1 = .halt ∧ t.status = .halted) ∨
        ∃ reason, Raises (decode s.hostMove.fetch.1) reason ∧ t.status = .aborted reason s.pc)) := by
  obtain ⟨hrun, ⟨hwait, rfl⟩ | ⟨hwait, hexec⟩⟩ := step_next_cases hstep
  · left; simpa using hrun
  · obtain hsame | hend := exec_status (wf_decode _) hexec
    · left; simpa [hrun] using hsame
    · right
      exact ⟨hwait, by simpa using hend⟩

/-- Settles O49: of the ends that `step_status` allows only HALT's is HALTED. -/
theorem haltedIsEnteredByHaltOnly : Obligations.HaltedIsEnteredByHaltOnly := by
  intro s t hstep hhalted
  obtain hrun | ⟨hwait, ⟨hhalt, -⟩ | ⟨reason, -, habort⟩⟩ := step_status hstep
  · rw [hhalted] at hrun; cases hrun
  · exact ⟨hwait, hhalt⟩
  · rw [hhalted] at habort; cases habort

/-- Settles O50: of the ends that `step_status` allows only a fault's is ABORTED, and `Raises` names the four. -/
theorem abortedIsEnteredByTheFourFaultsOnly : Obligations.AbortedIsEnteredByTheFourFaultsOnly := by
  intro s t reason ia hstep haborted
  obtain hrun | ⟨hwait, ⟨-, hhalted⟩ | ⟨reason', hraises, haborted'⟩⟩ := step_status hstep
  · rw [haborted] at hrun; cases hrun
  · rw [haborted] at hhalted; cases hhalted
  · cases haborted.symm.trans haborted'
    exact ⟨hwait, rfl, hraises⟩

/-! ## The console (R33, 44_trap.md R211) -/

/-- `q'` is the queue `q` less at most its head. -/
def TakesAtMostOne (q q' : List Byte) : Prop := ∃ taken, q = taken ++ q' ∧ taken.length ≤ 1

/-- A queue that is kept. -/
theorem takesAtMostOne_refl (q : List Byte) : TakesAtMostOne q q := ⟨[], rfl, by simp⟩

/-- A queue whose head is taken. -/
theorem takesAtMostOne_tail (b : Byte) (q : List Byte) : TakesAtMostOne (b :: q) q := ⟨[b], rfl, by simp⟩

/-- A MemRead takes at most the head, and that only if it is of KBSR. -/
theorem memRead_takes (s : State) (a : Word) : TakesAtMostOne s.inq (s.memRead a).2.inq := by
  obtain ⟨-, hread⟩ | ⟨-, -, hread⟩ | ⟨b, q, -, hq, hread⟩ := memRead_cases s a <;> rw [hread]
  · exact takesAtMostOne_refl s.inq
  · exact takesAtMostOne_refl s.inq
  · rw [hq]; exact takesAtMostOne_tail b q

/-- A MemRead through a pointer that was read: of the two only one can be of KBSR, whose value is no address of it. -/
theorem memRead_memRead_takes (s : State) (a : Word) :
    TakesAtMostOne s.inq ((s.memRead a).2.memRead (s.memRead a).1).2.inq := by
  by_cases ha : a = kbsr
  · have hptr : (s.memRead a).1 ≠ kbsr := by
      rw [ha, memRead_kbsr_value]
      split <;> decide
    rw [memRead_plain _ hptr]
    exact memRead_takes s a
  · rw [memRead_plain s ha]
    exact memRead_takes s _

/-- IN's read takes at most the head. -/
theorem inRead_takes (s : State) : TakesAtMostOne s.inq (inRead s).inq := by
  cases hq : s.inq with
  | nil => rw [inRead_empty hq, setInWait_inq, hq]; exact takesAtMostOne_refl []
  | cons b rest => rw [inRead_byte hq]; exact takesAtMostOne_tail b rest

/-- IN's read leaves the script alone. -/
theorem inRead_script (s : State) : (inRead s).script = s.script := by
  unfold inRead; split <;> rfl

/-- The console's input after an instruction: at most the head is taken, the script is kept, and IN alone may block. -/
theorem exec_console {i : Instr} {s t : State} (hwf : i.wf = true) (hexec : exec i s = .next t) :
    TakesAtMostOne s.inq t.inq ∧ t.script = s.script ∧ (i ≠ .inChar → t.inWait = s.inWait) := by
  have hkept : t.inq = s.inq ∧ t.inWait = s.inWait ∧ t.script = s.script →
      TakesAtMostOne s.inq t.inq ∧ t.script = s.script ∧ (i ≠ .inChar → t.inWait = s.inWait) :=
    fun ⟨hinq, hwait, hscript⟩ => ⟨hinq ▸ takesAtMostOne_refl s.inq, hscript, fun _ => hwait⟩
  cases i with
  | addReg | addImm | andReg | andImm | not | lea | st | str | jmp | jsr | rti | res =>
    cases hexec; exact hkept ⟨rfl, rfl, rfl⟩
  | ld | ldr => cases hexec; exact ⟨memRead_takes s _, by simp [loadTo]⟩
  | ldi => cases hexec; exact ⟨memRead_memRead_takes s _, by simp [loadTo]⟩
  | sti => cases hexec; exact ⟨memRead_takes s _, by simp⟩
  | br =>
    obtain ⟨_, -, -, -, -, -, -, hconsole⟩ := exec_br_movesPc hexec
    exact hkept hconsole
  | jsrr base =>
    cases hexec
    obtain ⟨-, -, -, -, -, -, -, hconsole⟩ := jsrrCall_links Config.jsrrBaseRead base s
    exact hkept hconsole
  | trap | out | puts | putsp | halt =>
    obtain ⟨_, _, -, -, -, -, -, -, -, hconsole⟩ := exec_trapWrites hwf hexec rfl rfl rfl
    exact hkept hconsole
  | getc =>
    cases hexec
    cases hq : s.inq with
    | nil => rw [serviceGetc_empty hq]; exact ⟨hq ▸ takesAtMostOne_refl s.inq, rfl, fun _ => rfl⟩
    | cons b rest => rw [serviceGetc_byte hq]; exact ⟨takesAtMostOne_tail b rest, rfl, fun _ => rfl⟩
  | inChar =>
    cases hexec
    exact ⟨inRead_takes (s.link.emit Config.inPrompt), inRead_script (s.link.emit Config.inPrompt),
      fun h => absurd rfl h⟩

/-- A fetch from KBSR gives RTI, or a BR that is never taken (20_memory.md R60). -/
theorem decode_fetch_kbsr {s : State} (h : s.pc = kbsr) :
    decode s.fetch.1 = .rti ∨ decode s.fetch.1 = .br false false false 0 := by
  have hword : s.fetch.1 = if s.inq = [] then 0x0000#16 else 0x8000#16 := by
    rw [← memRead_kbsr_value, ← h]; rfl
  rw [hword]
  split
  · exact .inr (by decide)
  · exact .inl (by decide)

/-- A fetch and the instruction fetched take at most the head: after a fetch from KBSR the instruction takes nothing. -/
theorem fetch_exec_takes {s t : State} (hexec : exec (decode s.fetch.1) s.fetch.2 = .next t) :
    TakesAtMostOne s.inq t.inq := by
  by_cases hpc : s.pc = kbsr
  · have hkept : t.inq = s.fetch.2.inq := by
      obtain hrti | hbr := decode_fetch_kbsr hpc
      · rw [hrti] at hexec; cases hexec; rfl
      · rw [hbr] at hexec
        obtain ⟨_, -, -, -, -, -, -, hinq, -⟩ := exec_br_movesPc hexec
        exact hinq
    rw [hkept]
    exact memRead_takes s s.pc
  · obtain ⟨htakes, -⟩ := exec_console (wf_decode _) hexec
    rwa [fetch_inq, memRead_plain s hpc] at htakes

/-- Settles O51: the log by O52; the queue and the script by `inRead_takes` and `fetch_exec_takes` after the host's move. -/
theorem consoleBytesKeepTheirOrder : Obligations.ConsoleBytesKeepTheirOrder := by
  intro s t hstep
  obtain ⟨written, hout, -⟩ := outputLogIsNeverReadBack s t [] hstep
  refine ⟨⟨written, hout⟩, ?_⟩
  rw [← hostMove_inq, ← hostMove_script]
  obtain ⟨-, ⟨-, rfl⟩ | ⟨-, hexec⟩⟩ := step_next_cases hstep
  · exact ⟨inRead_takes s.hostMove, inRead_script s.hostMove⟩
  · obtain ⟨-, hscript, -⟩ := exec_console (wf_decode _) hexec
    exact ⟨fetch_exec_takes hexec, hscript.trans (fetch_script s.hostMove)⟩

/-! ## The invariant (R33) -/

/-- MemReads keep memory canonical. -/
theorem wf_memReads (as : List Word) {s : State} (h : s.mem.wf = true) :
    (as.foldl (fun u a => (u.memRead a).2) s).mem.wf = true := by
  induction as generalizing s with
  | nil => exact h
  | cons a as ih => exact ih (wf_memRead h a)

/-- An instruction keeps memory canonical. -/
theorem exec_wf_mem {i : Instr} {s t : State} (h : s.mem.wf = true) (hexec : exec i s = .next t) : t.mem.wf = true := by
  obtain hmem | ⟨a, v, -, hmem⟩ := exec_mem hexec <;> rw [hmem]
  · exact wf_memReads _ h
  · exact wf_store (wf_memReads _ h) a v

/-- IN's read leaves the machine blocked only if no byte was there, and then as it was. -/
theorem inRead_eq_of_inWait {s : State} (h : (inRead s).inWait = true) : s.inq = [] ∧ inRead s = s.setInWait true := by
  cases hq : s.inq with
  | nil => exact ⟨rfl, inRead_empty hq⟩
  | cons b rest => rw [inRead_byte hq] at h; cases h

/-- IN that was just fetched and is blocked has done its first part. -/
theorem blockedInIn_of_fetch {s t : State} (hrun : s.status = .running) (hdecode : decode s.fetch.1 = .inChar)
    (hexec : exec .inChar s.fetch.2 = .next t) (hwait : t.inWait = true) : t.BlockedInIn := by
  cases hexec
  have hpc : s.pc ≠ kbsr := fun hpc => by
    obtain h | h := decode_fetch_kbsr hpc <;> rw [h] at hdecode <;> cases hdecode
  obtain ⟨hq, -⟩ := inRead_eq_of_inWait hwait
  obtain ⟨hlink, -, hout, hstatus, hpc', -, hmem, -⟩ := serviceIn_writes (s := s.fetch.2) hq
  have hword : (serviceIn s.fetch.2).mem.load ((serviceIn s.fetch.2).pc - 1) = s.fetch.1 := by
    rw [hmem, hpc', fetch_plain s hpc]
    exact congrArg s.mem.load (BitVec.add_sub_cancel s.pc 1)
  refine ⟨?status, ?decode, hlink.trans hpc'.symm, ?prompt⟩
  case status => rw [hstatus, fetch_status, hrun]
  case decode => rw [hword, hdecode]
  case prompt => rw [hout]; exact List.suffix_append s.fetch.2.out Config.inPrompt

/-- Settles O54: a step writes memory only as `exec_wf_mem` allows, and sets the blocked bit only in IN: a blocked one keeps
all that the bit stands for, and one just fetched has done its first part (`blockedInIn_of_fetch`). -/
theorem stepKeepsTheInvariant : Obligations.StepKeepsTheInvariant := by
  intro s t ⟨hmem, hblocked⟩ hstep
  obtain ⟨hrun, ⟨hwait, rfl⟩ | ⟨hwait, hexec⟩⟩ := step_next_cases hstep
  · refine ⟨by rwa [inRead_mem, hostMove_mem], fun hwait' => ?_⟩
    obtain ⟨-, hsame⟩ := inRead_eq_of_inWait hwait'
    obtain ⟨-, hdecode, hlink, hprompt⟩ := hblocked hwait
    rw [hsame]
    exact ⟨by simpa using hrun, by simpa using hdecode, by simpa using hlink, by simpa using hprompt⟩
  · have hmem' : s.hostMove.fetch.2.mem.wf = true := wf_memRead (by rwa [hostMove_mem]) _
    refine ⟨exec_wf_mem hmem' hexec, fun hwait' => ?_⟩
    by_cases hin : decode s.hostMove.fetch.1 = .inChar
    · rw [hin] at hexec
      exact blockedInIn_of_fetch (by simpa using hrun) hin hexec hwait'
    · obtain ⟨-, -, hsame⟩ := exec_console (wf_decode _) hexec
      rw [hsame hin, fetch_inWait, hostMove_inWait, hwait] at hwait'
      cases hwait'

/-- Settles O55: at reset and boot the blocked bit is clear, and the memory is empty or the canonical one given. -/
theorem invariantHoldsAtTheStart : Obligations.InvariantHoldsAtTheStart :=
  ⟨⟨rfl, fun h => nomatch h⟩, fun _ _ _ hwf => ⟨hwf, fun h => nomatch h⟩⟩

/-- Settles O56: the fields of `State.reset`, and memory with nothing listed reads 0 (`load_empty`). -/
theorem resetValues : Obligations.ResetValues :=
  ⟨fun r => by cases r <;> rfl, rfl, rfl, load_empty, rfl⟩

end Sys2Proof.Proofs
end

section
/-! PROOFS of the family 70_reset_and_hazards.md: boot (R282, R287 to R289). -/

namespace Sys2Proof.Proofs

open Sys2Proof.Machine Sys2Proof.Laws

/-- An image that loads, then the others into what it leaves. -/
theorem loadImages_cons_of_ok {m m' : Memory} {i : Option (List Byte)} (h : loadImage m i = .ok m')
    (is : List (Option (List Byte))) : loadImages m (i :: is) = loadImages m' is := by
  rw [loadImages, h]

/-- An image that does not load ends the loading. -/
theorem loadImages_cons_of_error {m : Memory} {i : Option (List Byte)} {e : LoadError} (h : loadImage m i = .error e)
    (is : List (Option (List Byte))) : loadImages m (i :: is) = .error e := by
  rw [loadImages, h]

/-- Images that load, then the others into what they leave. -/
theorem loadImages_append_of_ok {m m' : Memory} {pre : List (Option (List Byte))} (h : loadImages m pre = .ok m')
    (post : List (Option (List Byte))) : loadImages m (pre ++ post) = loadImages m' post := by
  induction pre generalizing m with
  | nil => cases h; rfl
  | cons i is ih =>
    cases hi : loadImage m i with
    | error e => rw [loadImages_cons_of_error hi] at h; cases h
    | ok m1 =>
      rw [loadImages_cons_of_ok hi] at h
      rw [List.cons_append, loadImages_cons_of_ok hi, ih h]

/-- If some image does not load, nothing runs. -/
theorem bootImages_of_error {images : List (Option (List Byte))} (hne : images ≠ []) {e : LoadError}
    (h : loadImages State.reset.mem images = .error e) (q : List Byte) (sc : List (List Byte)) :
    bootImages images q sc = .error (.loadFailed e) := by
  unfold bootImages
  split
  · exact absurd rfl hne
  · rw [h]

/-- Settles O58: the first clauses are what `loadImage` answers; the order of loading is `loadImages_append_of_ok`. -/
theorem bootRunsOnlyIfEveryImageLoads : Obligations.BootRunsOnlyIfEveryImageLoads := by
  refine ⟨fun _ _ => ⟨rfl, rfl, rfl⟩, fun _ _ _ _ hodd => if_pos hodd, fun _ _ _ => rfl, fun _ _ => rfl, fun _ => rfl,
    fun _ _ is _ h => loadImages_cons_of_ok h is, fun _ _ is _ h => loadImages_cons_of_error h is, ?_,
    fun _ _ q sc hne h => bootImages_of_loadImages hne h q sc⟩
  intro pre i post m e q sc hpre hi
  have hload : loadImages State.reset.mem (pre ++ i :: post) = .error e := by
    rw [loadImages_append_of_ok hpre, loadImages_cons_of_error hi]
  exact bootImages_of_error (by simp) hload q sc

end Sys2Proof.Proofs
end
